-- ==== Sys2Proof/Word.lean ====
section
/-! DEFINITION. The byte, the only word of the block (spec/20_memory.md R51: no field and no state element is wider). -/

namespace Sys2Proof

/-- A byte, bit 7 the most significant (spec/00_scope.md R8 item 1). `^^^` on bytes is the `^` of R8 item 2. -/
abbrev Byte := BitVec 8

end Sys2Proof
end

