-- ==== Sys2Proof/Config.lean ====
section
/-! DEFINITION. What an implementation fixes: the constants of spec/00_scope.md R6, the construction-time parameters of R7,
and the free values (opaque: nothing in Lean can evaluate them). -/

namespace Sys2Proof

/-- The start sentinel `START` (R6). -/
abbrev START : Byte := 0xAA

/-- The stop sentinel `STOP` (R6). -/
abbrev STOP : Byte := 0x55

/-- A timeout class: do not wait, wait a bounded time whose length is not modelled, wait until the condition holds
(R8 item 9, spec/42_position_fifo.md R163). -/
inductive Timeout where
  | zero
  | finite
  | infinite
deriving DecidableEq, Repr

/-- The construction-time parameters of R7. State holds them and no operation writes them (log entry 4), so a statement
about every state is a statement about every value of the three. -/
structure Params where
  /-- `CAP`, the FIFO's capacity in Coordinates. -/
  cap : Nat
  /-- `T_EMIT`, the timeout class of the decoder's own push. -/
  tEmit : Timeout
  /-- `FDEC_PERMISSIVE`: the one-shot decoder also accepts on a matching stop byte. -/
  fdecPermissive : Bool
deriving DecidableEq, Repr

/-- The values R7 gives for this hardware. -/
def Params.reference : Params := { cap := 100, tEmit := .zero, fdecPermissive := false }

/-- Free value: a byte the spec leaves unspecified (spec/10_state.md R37), one for each draw (log entry 5). -/
opaque Config.freeByte : Nat → Byte

/-- Free value: a byte index `tidx` the spec leaves unspecified (spec/10_state.md R37), one for each draw (log entry 5). -/
opaque Config.freeIndex : Nat → Fin 5

/-- Free value: whether a waiting `finite` call gives up at this attempt (spec/42_position_fifo.md R163: "not a function of the
state"), one for each draw (log entry 6). -/
opaque Config.finiteExpires : Nat → Bool

end Sys2Proof
end

