-- ==== Sys2Proof/Syntax.lean ====
section
/-! DEFINITION. The operations of the block, one constructor a row of spec/opcode_table.json, and the form in which an agent
offers one: a transfer at an interface (spec/10_state.md R36) or a program line (spec/30_encoding.md R95, R96). -/

namespace Sys2Proof

/-- A Coordinate: two unsigned bytes, `x` the first axis and `y` the second (spec/10_state.md R20). -/
structure Coordinate where
  x : Byte
  y : Byte
deriving DecidableEq, Repr

/-- An operation of the block (spec/00_scope.md R9), or a pseudo-operation of the program syntax (spec/30_encoding.md R96). -/
inductive Instr where
  /-- `ENCODE(c)`, R111. -/
  | encode (c : Coordinate)
  /-- `CHK(x, y)`, R112. -/
  | chk (x y : Byte)
  /-- `FDEC(b0, b1, b2, b3, b4)`, R115. -/
  | fdec (b0 b1 b2 b3 b4 : Byte)
  /-- `ENC.LOAD(c)`, R113. -/
  | encLoad (c : Coordinate)
  /-- `ENC.SEND`, R114. -/
  | encSend
  /-- `RX.START`, R132; its byte is `START`. -/
  | rxStart
  /-- `RX.SKIP`, R131. -/
  | rxSkip (b : Byte)
  /-- `RX.COLLECT1`, R133. -/
  | rxCollect1 (b : Byte)
  /-- `RX.COLLECT2`, R134. -/
  | rxCollect2 (b : Byte)
  /-- `RX.COLLECT3`, R135. -/
  | rxCollect3 (b : Byte)
  /-- `RX.ACCEPT_STOP`, R137; its byte is `STOP`. -/
  | rxAcceptStop
  /-- `RX.ACCEPT_CHK`, R138. -/
  | rxAcceptChk (b : Byte)
  /-- `RX.REJECT`, R142. -/
  | rxReject (b : Byte)
  /-- `EMIT.COMPLETE`, R140. -/
  | emitComplete
  /-- `EMIT.EXPIRE`, R141. -/
  | emitExpire
  /-- `PUSH(c, tau)`, R161, R162, R164. -/
  | push (c : Coordinate) (tau : Timeout)
  /-- `POP(tau)`, R165, R166, R167. -/
  | pop (tau : Timeout)
  /-- `RESET`, R220. -/
  | reset
  /-- `FEED [b0, ..., bn]`, R96. -/
  | feed (bs : List Byte)
  /-- `FEEDFRAME {x, y}`, R96. -/
  | feedFrame (c : Coordinate)
  /-- `SENDFRAME {x, y}`, R96. -/
  | sendFrame (c : Coordinate)
  /-- `DRAIN`, R96. -/
  | drain
deriving DecidableEq, Repr

/-- The eight cases of `RXB` (R84). -/
inductive RxCase where
  | start
  | skip
  | collect1
  | collect2
  | collect3
  | acceptStop
  | acceptChk
  | reject
deriving DecidableEq, Repr

/-- The agents of spec/00_scope.md R10. -/
inductive Agent where
  | decoder
  | encoder
  | byteSource
  | byteSink
  | coordSource
  | consumer
  | sampler
  | host
deriving DecidableEq, Repr

/-- Where an operation is offered: the five interfaces of spec/10_state.md R36 (`rx`, `enc`, `tx`, `push`, `pop`), the reset line,
the decoder's two internal steps, the inputs of the pure functions, and the four pseudo-operations of the program syntax
(spec/30_encoding.md R85, R96). -/
inductive Port where
  | encode
  | chk
  | fdec
  | enc
  | tx
  | rx
  | emitComplete
  | emitExpire
  | push
  | pop
  | rst
  | feed
  | feedFrame
  | sendFrame
  | drain
deriving DecidableEq, Repr

/-- An offer: the port it stands at and the bytes presented there (log entry 9). -/
structure Transfer where
  port : Port
  data : List Byte
deriving DecidableEq, Repr

/-- All that selects an operation (R84, R85): the offer, and for `RXB` the position `p` and whether the buffer passes the checksum
test, both before the operation. -/
structure Selection where
  pos : Fin 5
  chkOk : Bool
  offer : Transfer
deriving DecidableEq, Repr

/-- Why an offer is no operation. Only offers no pin of spec/10_state.md R38 can carry are rejected (log entry 9). -/
inductive Reject where
  /-- the port takes another number of bytes -/
  | dataLength (port : Port) (n : Nat)
  /-- the five bytes given for an `ENCODE` are not a canonical frame (R80: the constraint of format `F5`) -/
  | notCanonical
  /-- the byte is no timeout class -/
  | badTimeout (code : Byte)
deriving DecidableEq, Repr

end Sys2Proof
end

