-- ==== Sys2Proof/WellFormed.lean ====
section
/-! DEFINITION. When a term of `Instr` is an operation of the table: its byte meets the row's select condition
(spec/30_encoding.md R84). Every other operand may take every value (R20, R86). -/

namespace Sys2Proof

/-- The byte of a decoder case is one its row selects. -/
def Instr.wf : Instr → Bool
  | .encode _ => true
  | .chk _ _ => true
  | .fdec _ _ _ _ _ => true
  | .encLoad _ => true
  | .encSend => true
  | .rxStart => true
  | .rxSkip b => decide (b ≠ START)
  | .rxCollect1 _ => true
  | .rxCollect2 _ => true
  | .rxCollect3 _ => true
  | .rxAcceptStop => true
  | .rxAcceptChk b => decide (b ≠ STOP)
  | .rxReject b => decide (b ≠ STOP)
  | .emitComplete => true
  | .emitExpire => true
  | .push _ _ => true
  | .pop _ => true
  | .reset => true
  | .feed _ => true
  | .feedFrame _ => true
  | .sendFrame _ => true
  | .drain => true

end Sys2Proof
end

