-- ==== Sys2Proof/Decode.lean ====
section
/-! DEFINITION. The frame format (spec/30_encoding.md R80), the selection of an operation (R84, R85), total on any offer, and after
it the encoder, written from the same tables. -/

namespace Sys2Proof

/-! ### The frame format `F5` -/

/-- The checksum of a payload, `x ^ y` (R80, R112). -/
def checksum (x y : Byte) : Byte := x ^^^ y

/-- The five bytes of a frame, in the order of their offsets (R80, spec/40_frame_codec.md R111). -/
def frameOf (c : Coordinate) : List Byte := [START, c.x, c.y, checksum c.x c.y, STOP]

/-- A frame is canonical: both sentinels and the checksum are right (R81 (2)). -/
def canonicalFrame (b0 b1 b2 b3 b4 : Byte) : Bool :=
  b0 == START && b3 == checksum b1 b2 && b4 == STOP

/-! ### Operand forms -/

/-- The model's code of a timeout class (log entry 9: the caller keeps it, no pin carries it). -/
def timeoutCode : Timeout → Byte
  | .zero => 0
  | .finite => 1
  | .infinite => 2

/-- The timeout class of a code. -/
def timeoutOf (code : Byte) : Option Timeout :=
  if code = 0 then some .zero else if code = 1 then some .finite else if code = 2 then some .infinite else none

/-! ### The decoder's selection -/

/-- R84's table: the case of `RXB(b)` at position `pos`; `chkOk` says whether `buf[3] == buf[1] ^ buf[2]`. -/
def decodeRx (pos : Fin 5) (chkOk : Bool) (b : Byte) : Instr :=
  match pos with
  | 0 => if b = START then .rxStart else .rxSkip b
  | 1 => .rxCollect1 b
  | 2 => .rxCollect2 b
  | 3 => .rxCollect3 b
  | 4 => if b = STOP then .rxAcceptStop else if chkOk then .rxAcceptChk b else .rxReject b

/-- An offer with no bytes. -/
def noBytes (t : Transfer) (i : Instr) : Except Reject Instr :=
  match t.data with
  | [] => .ok i
  | _ => .error (.dataLength t.port t.data.length)

/-- An offer of one byte. -/
def oneByte (t : Transfer) (k : Byte → Except Reject Instr) : Except Reject Instr :=
  match t.data with
  | [a] => k a
  | _ => .error (.dataLength t.port t.data.length)

/-- An offer of two bytes: a Coordinate, `x` first, or two operands. -/
def twoBytes (t : Transfer) (k : Byte → Byte → Except Reject Instr) : Except Reject Instr :=
  match t.data with
  | [a, b] => k a b
  | _ => .error (.dataLength t.port t.data.length)

/-- An offer of three bytes: a Coordinate and a timeout class. -/
def threeBytes (t : Transfer) (k : Byte → Byte → Byte → Except Reject Instr) : Except Reject Instr :=
  match t.data with
  | [a, b, c] => k a b c
  | _ => .error (.dataLength t.port t.data.length)

/-- An offer of five bytes: a frame, byte 0 first (spec/20_memory.md R50). -/
def fiveBytes (t : Transfer) (k : Byte → Byte → Byte → Byte → Byte → Except Reject Instr) : Except Reject Instr :=
  match t.data with
  | [a, b, c, d, e] => k a b c d e
  | _ => .error (.dataLength t.port t.data.length)

/-- An operation with a timeout class among its operands. -/
def withTimeout (code : Byte) (k : Timeout → Instr) : Except Reject Instr :=
  match timeoutOf code with
  | some tau => .ok (k tau)
  | none => .error (.badTimeout code)

/-- The operation an offer selects (R84, R85), or why it selects none. -/
def decode (s : Selection) : Except Reject Instr :=
  match s.offer.port with
  | .encode => fiveBytes s.offer fun b0 b1 b2 b3 b4 =>
    if canonicalFrame b0 b1 b2 b3 b4 then .ok (.encode ⟨b1, b2⟩) else .error .notCanonical
  | .chk => twoBytes s.offer fun x y => .ok (.chk x y)
  | .fdec => fiveBytes s.offer fun b0 b1 b2 b3 b4 => .ok (.fdec b0 b1 b2 b3 b4)
  | .enc => twoBytes s.offer fun x y => .ok (.encLoad ⟨x, y⟩)
  | .tx => noBytes s.offer .encSend
  | .rx => oneByte s.offer fun b => .ok (decodeRx s.pos s.chkOk b)
  | .emitComplete => noBytes s.offer .emitComplete
  | .emitExpire => noBytes s.offer .emitExpire
  | .push => threeBytes s.offer fun x y t => withTimeout t fun tau => .push ⟨x, y⟩ tau
  | .pop => oneByte s.offer fun t => withTimeout t fun tau => .pop tau
  | .rst => noBytes s.offer .reset
  | .feed => .ok (.feed s.offer.data)
  | .feedFrame => twoBytes s.offer fun x y => .ok (.feedFrame ⟨x, y⟩)
  | .sendFrame => twoBytes s.offer fun x y => .ok (.sendFrame ⟨x, y⟩)
  | .drain => noBytes s.offer .drain

/-! ### The encoder -/

/-- A selection that does not look at the decoder's state. -/
def plainSelection (port : Port) (data : List Byte) : Selection := { pos := 0, chkOk := false, offer := ⟨port, data⟩ }

/-- A selection of a case of `RXB`. -/
def rxSelection (pos : Fin 5) (chkOk : Bool) (b : Byte) : Selection := { pos := pos, chkOk := chkOk, offer := ⟨.rx, [b]⟩ }

/-- How an operation is selected: its port, its bytes, and for a case of `RXB` the position and the buffer test of its row. -/
def encode : Instr → Selection
  | .encode c => plainSelection .encode (frameOf c)
  | .chk x y => plainSelection .chk [x, y]
  | .fdec b0 b1 b2 b3 b4 => plainSelection .fdec [b0, b1, b2, b3, b4]
  | .encLoad c => plainSelection .enc [c.x, c.y]
  | .encSend => plainSelection .tx []
  | .rxStart => rxSelection 0 false START
  | .rxSkip b => rxSelection 0 false b
  | .rxCollect1 b => rxSelection 1 false b
  | .rxCollect2 b => rxSelection 2 false b
  | .rxCollect3 b => rxSelection 3 false b
  | .rxAcceptStop => rxSelection 4 false STOP
  | .rxAcceptChk b => rxSelection 4 true b
  | .rxReject b => rxSelection 4 false b
  | .emitComplete => plainSelection .emitComplete []
  | .emitExpire => plainSelection .emitExpire []
  | .push c tau => plainSelection .push [c.x, c.y, timeoutCode tau]
  | .pop tau => plainSelection .pop [timeoutCode tau]
  | .reset => plainSelection .rst []
  | .feed bs => plainSelection .feed bs
  | .feedFrame c => plainSelection .feedFrame [c.x, c.y]
  | .sendFrame c => plainSelection .sendFrame [c.x, c.y]
  | .drain => plainSelection .drain []

/-! ### The drawn words of spec/opcode_table.json -/

/-- The 11-bit selection word `sel = p[2:0] ++ b[7:0]` (R84). -/
def selWord (pos : Fin 5) (b : Byte) : BitVec 11 := BitVec.ofNat 3 pos.val ++ b

/-- A row of R84's drawing: match, mask, and the buffer test where the row has one. -/
structure SelRow where
  kind : RxCase
  value : BitVec 11
  mask : BitVec 11
  chkOk : Option Bool
deriving DecidableEq, Repr

/-- The rows of R84 in their order of priority. -/
def selRows : List SelRow :=
  [⟨.start, 0x0AA, 0x7FF, none⟩, ⟨.skip, 0x000, 0x700, none⟩,
   ⟨.collect1, 0x100, 0x700, none⟩, ⟨.collect2, 0x200, 0x700, none⟩, ⟨.collect3, 0x300, 0x700, none⟩,
   ⟨.acceptStop, 0x455, 0x7FF, none⟩, ⟨.acceptChk, 0x400, 0x700, some true⟩, ⟨.reject, 0x400, 0x700, some false⟩]

/-- The word and the buffer test meet the row. -/
def SelRow.selects (r : SelRow) (sel : BitVec 11) (chkOk : Bool) : Bool :=
  sel &&& r.mask == r.value && (r.chkOk == none || r.chkOk == some chkOk)

/-- The case of the first row the word meets; no row for a position field of 5, 6 or 7 (spec/10_state.md R22). -/
def caseOfWord (sel : BitVec 11) (chkOk : Bool) : Option RxCase :=
  (selRows.find? fun r => r.selects sel chkOk).map (·.kind)

/-- The operation of a case and its byte. -/
def RxCase.instr (k : RxCase) (b : Byte) : Instr :=
  match k with
  | .start => .rxStart
  | .skip => .rxSkip b
  | .collect1 => .rxCollect1 b
  | .collect2 => .rxCollect2 b
  | .collect3 => .rxCollect3 b
  | .acceptStop => .rxAcceptStop
  | .acceptChk => .rxAcceptChk b
  | .reject => .rxReject b

/-- Byte `i` of a 40-bit frame drawing, byte 0 in bits 39:32 (R80). -/
def drawnByte (w i : Nat) : Byte := BitVec.ofNat 8 (w / 2 ^ (8 * (4 - i)))

/-- The operation of a word of spec/opcode_table.json, numbered as the table draws it (log entry 10). 40 bits: format `F5`, a canonical
frame is the row `ENCODE`, any other five bytes are the row `FDEC`. 16 bits: the 11-bit selection word. 8 bits: the row
`RESET`, its field `rst` in bit 1. The other rows have no bits (R85). -/
def decodeTableWord (nbits w : Nat) : Option Instr :=
  if nbits = 40 then
    if 2 ^ 40 ≤ w then none
    else
      let frame := [drawnByte w 0, drawnByte w 1, drawnByte w 2, drawnByte w 3, drawnByte w 4]
      match decode (plainSelection .encode frame) with
      | .ok i => some i
      | .error _ => (decode (plainSelection .fdec frame)).toOption
  else if nbits = 16 then
    if 2 ^ 11 ≤ w then none
    else (caseOfWord (BitVec.ofNat 11 w) true).map fun k => k.instr (BitVec.ofNat 8 w)
  else if nbits = 8 then
    if w.testBit 1 then some .reset else none
  else none

/-- The 40-bit drawing of five bytes. -/
def drawnFrame (b0 b1 b2 b3 b4 : Byte) : Nat := (b0 ++ b1 ++ b2 ++ b3 ++ b4).toNat

/-- The width and the word the table draws for an operation, where it draws one. -/
def tableWord : Instr → Option (Nat × Nat)
  | .encode c => some (40, drawnFrame START c.x c.y (checksum c.x c.y) STOP)
  | .chk _ _ => none
  | .fdec b0 b1 b2 b3 b4 => some (40, drawnFrame b0 b1 b2 b3 b4)
  | .encLoad _ => none
  | .encSend => none
  | .rxStart => some (16, (selWord 0 START).toNat)
  | .rxSkip b => some (16, (selWord 0 b).toNat)
  | .rxCollect1 b => some (16, (selWord 1 b).toNat)
  | .rxCollect2 b => some (16, (selWord 2 b).toNat)
  | .rxCollect3 b => some (16, (selWord 3 b).toNat)
  | .rxAcceptStop => some (16, (selWord 4 STOP).toNat)
  | .rxAcceptChk b => some (16, (selWord 4 b).toNat)
  | .rxReject b => some (16, (selWord 4 b).toNat)
  | .emitComplete => none
  | .emitExpire => none
  | .push _ _ => none
  | .pop _ => none
  | .reset => some (8, 2)
  | .feed _ => none
  | .feedFrame _ => none
  | .sendFrame _ => none
  | .drain => none

end Sys2Proof
end

