-- ==== Sys2Proof/Machine/State.lean ====
section
/-! DEFINITION. The state of the block (spec/10_state.md R21) with its construction parameters, the offers that stand at its interfaces
and what has been observed of the run; the reasons a step can stop; the state after reset (R37). -/

namespace Sys2Proof.Machine

/-- The error results of the one-shot decoder (spec/60_exceptions.md R191, R193, R194). -/
inductive FrameError where
  | badStart
  | checksumMismatch
deriving DecidableEq, Repr

/-- The error results of the FIFO (spec/60_exceptions.md R191, R195, R196). -/
inductive QueueError where
  | queueFull
  | queueEmpty
deriving DecidableEq, Repr

/-- What `FDEC` returns (spec/40_frame_codec.md R115). -/
inductive FdecResult where
  | ok (c : Coordinate)
  | err (e : FrameError)
deriving DecidableEq, Repr

/-- An externally observable event (spec/00_scope.md R8 item 11). -/
inductive Event where
  /-- the decoder appended `c` to the FIFO -/
  | emit (c : Coordinate)
  /-- the decoder had an accepted `c` and the FIFO refused it -/
  | dropFull (c : Coordinate)
  /-- the encoder handed byte `b` to the byte sink -/
  | tx (b : Byte)
  /-- the sampler's push transferred `c` -/
  | pushed (c : Coordinate)
  /-- the consumer's pop transferred `c` -/
  | popped (c : Coordinate)
deriving DecidableEq, Repr

/-- A value returned to the agent that asked (spec/00_scope.md R8 item 10, R12). -/
inductive Result where
  /-- `ENCODE`'s five bytes -/
  | frame (bs : List Byte)
  /-- `CHK`'s byte -/
  | byte (b : Byte)
  /-- `FDEC`'s result and the informational `stop_ok` (R115, R116) -/
  | fdec (r : FdecResult) (stopOk : Bool)
  /-- `PUSH`: `Ok` -/
  | pushOk
  /-- `POP`: `Ok(c)` -/
  | popOk (c : Coordinate)
  /-- `PUSH` or `POP`: `Err(QueueFull)` or `Err(QueueEmpty)` -/
  | err (e : QueueError)
deriving DecidableEq, Repr

/-- The decoder's state (spec/10_state.md R22, R23, R30). -/
structure Decoder where
  /-- the position counter, 0 to 4 by its type (R22) -/
  p : Fin 5
  buf1 : Byte
  buf2 : Byte
  buf3 : Byte
  /-- the pending emission -/
  pe : Option Coordinate
deriving DecidableEq, Repr

/-- The encoder's state (spec/10_state.md R27), with the spec's own names. -/
structure Encoder where
  tbusy : Bool
  tidx : Fin 5
  tx_x : Byte
  tx_y : Byte
deriving DecidableEq, Repr

/-- What stands at the interfaces: the agents' offers, each agent's in its own order, the agents that move next, and the reset line
(spec/10_state.md R36, R38, spec/20_memory.md R58; log entries 1, 2, 7). -/
structure Env where
  offers : List Transfer
  turns : List Agent
  rst : Bool
deriving DecidableEq, Repr

/-- The observation of a run (spec/00_scope.md R12; log entry 8). No operation reads it. -/
structure Observed where
  /-- the trace of events, oldest first; its `tx` events are the byte-out stream -/
  events : List Event
  /-- the values returned, oldest first -/
  results : List Result
  /-- the bytes of the byte-in stream taken since the last `RESET`, oldest first (spec/10_state.md R35) -/
  bytesIn : List Byte
  /-- the Coordinates loaded into the encoder since the last `RESET`, oldest first (spec/40_frame_codec.md R119) -/
  coordsIn : List Coordinate
  /-- how long the trace was at the last `RESET` (spec/70_reset_and_hazards.md R221) -/
  runStart : Nat
deriving DecidableEq, Repr

/-- The machine: the block's parameters and state, its interfaces, the observation, and the model's own count of free values drawn
(log entry 6). -/
structure State where
  params : Params
  dec : Decoder
  enc : Encoder
  /-- the FIFO, head first (spec/10_state.md R28) -/
  q : List Coordinate
  env : Env
  obs : Observed
  draw : Nat
deriving DecidableEq, Repr

/-- The faults: none. "This block has no traps, so `fault` is never the treatment here" (spec/93_implementation_defined.md;
spec/60_exceptions.md R190, R201). Nothing raises one; safe. -/
inductive Fault
deriving DecidableEq, Repr

/-- The refusals. -/
inductive Refusal where
  /-- Raised by an arm of `exec` whose instruction has no meaning yet; safe. No arm raises it. -/
  | notModelled (mnemonic : String)
  /-- Raised by `step` when the offer it fetched has bytes no pin can carry (log entry 9); safe. -/
  | malformed (why : Reject)
deriving DecidableEq, Repr

/-- The decoder after reset, its unspecified cells the free values from draw `d` on (R37, log entry 5). -/
def Decoder.reset (d : Nat) : Decoder :=
  { p := 0, buf1 := Config.freeByte d, buf2 := Config.freeByte (d + 1), buf3 := Config.freeByte (d + 2), pe := none }

/-- The encoder after reset, its unspecified cells the free values from draw `d + 3` on (R37, log entry 5). -/
def Encoder.reset (d : Nat) : Encoder :=
  { tbusy := false, tidx := Config.freeIndex (d + 5), tx_x := Config.freeByte (d + 3), tx_y := Config.freeByte (d + 4) }

/-- How many free values a reset draws: one for each unspecified cell of R37. -/
abbrev resetDraws : Nat := 6

/-- The machine right after reset (R37) with the parameters of R7, nothing offered and nothing observed. -/
def State.reset : State where
  params := Params.reference
  dec := Decoder.reset 0
  enc := Encoder.reset 0
  q := []
  env := { offers := [], turns := [], rst := false }
  obs := { events := [], results := [], bytesIn := [], coordsIn := [], runStart := 0 }
  draw := resetDraws

end Sys2Proof.Machine
end

