-- ==== Sys2Proof/Machine/Flags.lean ====
section
/-! DEFINITION. The flags and the count of spec/10_state.md R32, the tests the operations read, and the output pins of R38: all of them
functions of the state. Nothing in the block sets a flag by arithmetic (spec/30_encoding.md R88). -/

namespace Sys2Proof.Machine

/-! ### Tests -/

/-- The FIFO has room: `|q| < CAP`. -/
abbrev State.hasRoom (s : State) : Prop := s.q.length < s.params.cap

/-- The RX interface is ready: no emission is pending (R30, R36). -/
abbrev State.rxReady (s : State) : Prop := s.dec.pe = none

/-- `chk_ok` of spec/41_stream_decoder.md R136: `buf[3] == buf[1] ^ buf[2]`. -/
def Decoder.chkOk (d : Decoder) : Bool := d.buf3 == checksum d.buf1 d.buf2

/-- The Coordinate the decoder has collected: the payload bytes exactly as received (spec/30_encoding.md R83). -/
def Decoder.candidate (d : Decoder) : Coordinate := ⟨d.buf1, d.buf2⟩

/-- The Coordinate being sent. -/
def Encoder.coordinate (e : Encoder) : Coordinate := ⟨e.tx_x, e.tx_y⟩

/-! ### Flags (R32) -/

/-- `fifo_empty` -/
def State.fifoEmpty (s : State) : Bool := s.q.length == 0

/-- `fifo_full` -/
def State.fifoFull (s : State) : Bool := s.q.length == s.params.cap

/-- `fifo_count` -/
def State.fifoCount (s : State) : Nat := s.q.length

/-- The width of `fifo_count`: `ceil(log2(CAP + 1))` bits. -/
def State.fifoCountWidth (s : State) : Nat := Nat.clog 2 (s.params.cap + 1)

/-- `tbusy` -/
def State.tbusy (s : State) : Bool := s.enc.tbusy

/-- `pe_valid` -/
def State.peValid (s : State) : Bool := s.dec.pe.isSome

/-! ### Output pins (R38) -/

/-- The output pins at operation level. A data pin is absent while it is not valid (spec/93_implementation_defined.md U6, log entry 15). -/
structure Pins where
  rx_ready : Bool
  enc_ready : Bool
  tx_valid : Bool
  tx_data : Option Byte
  push_ready : Bool
  pop_valid : Bool
  pop_x : Option Byte
  pop_y : Option Byte
  fifo_count : Nat
  fifo_full : Bool
  fifo_empty : Bool
deriving DecidableEq, Repr

/-- The byte the encoder hands over next (spec/40_frame_codec.md R114): byte `tidx` of the frame. -/
def Encoder.nextByte (e : Encoder) : Byte :=
  match e.tidx with
  | 0 => START
  | 1 => e.tx_x
  | 2 => e.tx_y
  | 3 => checksum e.tx_x e.tx_y
  | 4 => STOP

/-- The output pins of a state. -/
def State.pins (s : State) : Pins where
  rx_ready := !s.peValid
  enc_ready := !s.enc.tbusy
  tx_valid := s.enc.tbusy
  tx_data := if s.enc.tbusy then some s.enc.nextByte else none
  push_ready := decide s.hasRoom
  pop_valid := !s.fifoEmpty
  pop_x := s.q.head?.map (·.x)
  pop_y := s.q.head?.map (·.y)
  fifo_count := s.fifoCount
  fifo_full := s.fifoFull
  fifo_empty := s.fifoEmpty

/-- Pin `emit_drop` of a step from `s` to `t`: a `DROP_FULL` event occurred in it. -/
def emitDrop (s t : State) : Bool :=
  (t.obs.events.drop s.obs.events.length).any fun e =>
    match e with
    | .dropFull _ => true
    | .emit _ => false
    | .tx _ => false
    | .pushed _ => false
    | .popped _ => false

/-! ### Numeric codes (spec/60_exceptions.md R192) -/

/-- `fdec_err[1:0]` -/
def FdecResult.code : FdecResult → BitVec 2
  | .ok _ => 0
  | .err .badStart => 1
  | .err .checksumMismatch => 2

/-- The one-bit result of a push or a pop, where the result is one. -/
def Result.code : Result → Option (BitVec 1)
  | .pushOk => some 0
  | .popOk _ => some 0
  | .err _ => some 1
  | .frame _ => none
  | .byte _ => none
  | .fdec _ _ => none

end Sys2Proof.Machine
end

