-- ==== Sys2Proof/Machine/Ops.lean ====
section
/-! DEFINITION. The named operations over the state: the primitives of spec/00_scope.md R8 items 8 to 11 (`QAppend`, `QRemove`,
`RxTake`, `TxPut`, `event`, `return`), `DoEmit`, reset, and waiting. The block takes no exception and returns from none
(spec/60_exceptions.md R190, R200): an error is the value `State.fail` returns. -/

namespace Sys2Proof.Machine

/-- `event E(v)` (R8 item 11). -/
def State.logEvent (e : Event) (s : State) : State := { s with obs.events := s.obs.events ++ [e] }

/-- `return v` to the agent that asked (R8 item 10). -/
def State.answer (r : Result) (s : State) : State := { s with obs.results := s.obs.results ++ [r] }

/-- `return Err(e)` (R8 item 10): the complete effect of a pipeline error (spec/60_exceptions.md R190). -/
def State.fail (e : QueueError) (s : State) : State := s.answer (.err e)

/-- Puts offers in front of those that stand at the interfaces. -/
def State.offerFirst (ts : List Transfer) (s : State) : State := { s with env.offers := ts ++ s.env.offers }

/-- The operation is not enabled, or its caller waits: the agent goes on offering it and nothing else changes
(spec/10_state.md R36, spec/42_position_fifo.md R163; log entry 3). -/
def State.hold (i : Instr) (s : State) : State := s.offerFirst [(encode i).offer]

/-- `p <- v` (R8 item 7). -/
def State.setP (v : Fin 5) (s : State) : State := { s with dec.p := v }

/-- `pe <- v` -/
def State.setPe (v : Option Coordinate) (s : State) : State := { s with dec.pe := v }

/-- `buf[1] <- b` (R8 item 6). -/
def State.setBuf1 (b : Byte) (s : State) : State := { s with dec.buf1 := b }

/-- `buf[2] <- b` (R8 item 6). -/
def State.setBuf2 (b : Byte) (s : State) : State := { s with dec.buf2 := b }

/-- `buf[3] <- b` (R8 item 6). -/
def State.setBuf3 (b : Byte) (s : State) : State := { s with dec.buf3 := b }

/-- Writes the encoder's four elements. -/
def State.setEnc (e : Encoder) (s : State) : State := { s with enc := e }

/-- `QAppend(c)` (R8 item 8). -/
def State.qAppend (c : Coordinate) (s : State) : State := { s with q := s.q ++ [c] }

/-- The write of `QRemove()` (R8 item 8): `q <- tail(q)`. -/
def State.qRemove (s : State) : State := { s with q := s.q.tail }

/-- `RxTake()` yielded `b` (R8 item 8): the byte is consumed. -/
def State.rxTake (b : Byte) (s : State) : State := { s with obs.bytesIn := s.obs.bytesIn ++ [b] }

/-- `TxPut(b)` with its event (R8 items 8 and 11). -/
def State.txPut (b : Byte) (s : State) : State := s.logEvent (.tx b)

/-- The encoder took `c` from the coordinate source. -/
def State.encTake (c : Coordinate) (s : State) : State := { s with obs.coordsIn := s.obs.coordsIn ++ [c] }

/-- `n` free values have been drawn (log entry 6). -/
def State.drawn (n : Nat) (s : State) : State := { s with draw := s.draw + n }

/-- A Coordinate enters the FIFO, with the event that says who appended it. -/
def State.append (c : Coordinate) (e : Event) (s : State) : State := (s.qAppend c).logEvent e

/-- `DoEmit(c)` (spec/41_stream_decoder.md R139). -/
def State.doEmit (c : Coordinate) (s : State) : State :=
  if s.hasRoom then s.append c (.emit c)
  else
    match s.params.tEmit with
    | .zero => s.logEvent (.dropFull c)
    | .finite => s.setPe (some c)
    | .infinite => s.setPe (some c)

/-- `PUSH` with room (spec/42_position_fifo.md R161). -/
def State.pushNow (c : Coordinate) (s : State) : State := (s.append c (.pushed c)).answer .pushOk

/-- `POP` with `c` at the head (spec/42_position_fifo.md R165). -/
def State.popNow (c : Coordinate) (s : State) : State := (s.qRemove.logEvent (.popped c)).answer (.popOk c)

/-- What a call that cannot proceed does, by its timeout class (spec/42_position_fifo.md R162, R163, R164, R166, R167): `zero` fails at
once, `infinite` waits, `finite` gives up or waits as the free value of this draw says. -/
def State.refuseOrWait (tau : Timeout) (e : QueueError) (i : Instr) (s : State) : State :=
  match tau with
  | .zero => s.fail e
  | .finite => if Config.finiteExpires s.draw then (s.fail e).drawn 1 else (s.hold i).drawn 1
  | .infinite => s.hold i

/-- `RESET` (spec/70_reset_and_hazards.md R220): the block's state is that of R37 and a new run is observed from here on
(R12, R221). Parameters, offers and the trace stay. -/
def State.resetBlock (s : State) : State :=
  { s with
    dec := Decoder.reset s.draw
    enc := Encoder.reset s.draw
    q := []
    obs := { s.obs with bytesIn := [], coordsIn := [], runStart := s.obs.events.length }
    draw := s.draw + resetDraws }

/-- The outcome of an operation that takes effect where it is enabled and is held where it is not. -/
def whenEnabled (enabled : Prop) [Decidable enabled] (i : Instr) (s : State) (effect : State) :
    Host.Outcome State Fault Refusal :=
  if enabled then .next effect else .next (s.hold i)

end Sys2Proof.Machine
end

