-- ==== Sys2Proof/Machine/Operands.lean ====
section
/-! DEFINITION. How the operands of an operation come from an offer and the state: the selection of spec/30_encoding.md R84, R85, the
offers of the program syntax (R96), and which agent stands behind a port (spec/10_state.md R36). -/

namespace Sys2Proof.Machine

/-- The offer together with what selects a case of `RXB`: the position and the buffer test before the operation (R84). -/
def State.selection (s : State) (t : Transfer) : Selection :=
  { pos := s.dec.p, chkOk := s.dec.chkOk, offer := t }

/-- The case of `RXB(b)` in this state (R84). -/
def State.selectRx (s : State) (b : Byte) : Instr := decodeRx s.dec.p s.dec.chkOk b

/-- The line `RXB b`: byte `b` offered at RX (spec/30_encoding.md R95). -/
def rxOffer (b : Byte) : Transfer := ⟨.rx, [b]⟩

/-- The lines of `FEED bs` (R96). -/
def feedOffers (bs : List Byte) : List Transfer := bs.map rxOffer

/-- The lines of `SENDFRAME c` (R96): `ENC.LOAD c` and five `ENC.SEND`. -/
def sendFrameOffers (c : Coordinate) : List Transfer :=
  (encode (.encLoad c)).offer :: List.replicate 5 (encode .encSend).offer

/-- The agent behind a port (spec/00_scope.md R10, spec/10_state.md R36). Any agent may evaluate a pure function
(spec/40_frame_codec.md R110); the model files them under the host (log entry 11). R10 and R36 name no pseudo-operation and
spec/30_encoding.md R96 names no agent for one: that a whole `SENDFRAME` line moves in the coordinate source's turn, although its
`ENC.SEND` lines are the byte sink's, is a DESIGN CHOICE, and so are the turns of `FEED`, `FEEDFRAME` and `DRAIN` (log entry 12). -/
def Port.agent : Port → Agent
  | .encode => .host
  | .chk => .host
  | .fdec => .host
  | .enc => .coordSource
  | .tx => .byteSink
  | .rx => .byteSource
  | .emitComplete => .decoder
  | .emitExpire => .decoder
  | .push => .sampler
  | .pop => .consumer
  | .rst => .host
  | .feed => .byteSource
  | .feedFrame => .byteSource
  | .sendFrame => .coordSource
  | .drain => .consumer

/-- The first offer of agent `a`, and the offers without it: an agent's operations happen in its own order
(spec/20_memory.md R58). -/
def takeOffer (a : Agent) : List Transfer → Option (Transfer × List Transfer)
  | [] => none
  | t :: ts =>
    if Port.agent t.port = a then some (t, ts)
    else (takeOffer a ts).map fun r => (r.1, t :: r.2)

/-- Takes the offer the next step attempts: a reset where the line is asserted, which wins over every other (spec/70_reset_and_hazards.md
R220, spec/60_exceptions.md R198 (d)); else the first offer of the agent whose turn it is; else the first offer. `none` where
nothing is offered. The state is the one with the offer, the turn or the line taken away. -/
def State.fetch (s : State) : Option Transfer × State :=
  if s.env.rst then (some (encode .reset).offer, { s with env.rst := false })
  else
    match s.env.turns with
    | [] =>
      match s.env.offers with
      | [] => (none, s)
      | t :: ts => (some t, { s with env.offers := ts })
    | a :: as =>
      match takeOffer a s.env.offers with
      | none => (none, { s with env.turns := as })
      | some (t, ts) => (some t, { s with env := { s.env with offers := ts, turns := as } })

/-- The decoder where a drawn selection word says it is (R84): at position `pos` with nothing pending, and, at position 4 with a byte
other than `STOP`, with a buffer on which the checksum test comes out as `chkOk`. -/
def Decoder.arranged (sel : Selection) (d : Decoder) : Decoder :=
  if sel.pos = 4 ∧ sel.offer.data ≠ [STOP] then
    { p := 4, buf1 := 0, buf2 := 0, buf3 := if sel.chkOk then 0 else 1, pe := none }
  else { d with p := sel.pos, pe := none }

/-- Puts an operation where the next step fetches it: its offer in front, no turn and no reset line before it, and for a case of
`RXB` the decoder where its selection word says (log entry 10). -/
def State.placeFirst (sel : Selection) (s : State) : State :=
  { s with
    dec := if sel.offer.port = .rx then s.dec.arranged sel else s.dec
    env := { offers := sel.offer :: s.env.offers, turns := [], rst := false } }

end Sys2Proof.Machine
end

