-- ==== Sys2Proof/Machine/Codec.lean ====
section
/-! DEFINITION. The frame codec (spec/40_frame_codec.md): `ENCODE`, `CHK`, `FDEC`, `ENC.LOAD`, `ENC.SEND`. -/

namespace Sys2Proof.Machine

/-- `FDEC` (R115): start first, then the checksum, then the stop byte where the parameter lets it count. -/
def fdecOf (permissive : Bool) (b0 b1 b2 b3 b4 : Byte) : FdecResult :=
  if b0 ≠ START then .err .badStart
  else if b3 = checksum b1 b2 then .ok ⟨b1, b2⟩
  else if permissive ∧ b4 = STOP then .ok ⟨b1, b2⟩
  else .err .checksumMismatch

/-- `stop_ok` (R116). -/
def stopOk (b4 : Byte) : Bool := b4 == STOP

/-- The output pins of the one-shot decoder (spec/10_state.md R38). The payload pins are absent where they are not meaningful
(log entry 15). -/
structure FdecPins where
  fdec_err : BitVec 2
  fdec_x : Option Byte
  fdec_y : Option Byte
  fdec_stop_ok : Bool
deriving DecidableEq, Repr

/-- The payload of a result, where it has one. -/
def FdecResult.payload : FdecResult → Option Coordinate
  | .ok c => some c
  | .err _ => none

/-- The one-shot decoder at its pins: the five bytes stand at `fdec_in`, byte 0 in bits 39:32 (spec/10_state.md R38). -/
def fdecPins (permissive : Bool) (fdec_in : BitVec 40) : FdecPins :=
  let b := drawnByte fdec_in.toNat
  let r := fdecOf permissive (b 0) (b 1) (b 2) (b 3) (b 4)
  { fdec_err := r.code, fdec_x := r.payload.map (·.x), fdec_y := r.payload.map (·.y), fdec_stop_ok := stopOk (b 4) }

/-- `ENCODE(c)` (R111). -/
def execEncode (c : Coordinate) (s : State) : Host.Outcome State Fault Refusal :=
  .next (s.answer (.frame (frameOf c)))

/-- `CHK(x, y)` (R112). -/
def execChk (x y : Byte) (s : State) : Host.Outcome State Fault Refusal :=
  .next (s.answer (.byte (checksum x y)))

/-- `FDEC(b0, b1, b2, b3, b4)` (R115, R116). -/
def execFdec (b0 b1 b2 b3 b4 : Byte) (s : State) : Host.Outcome State Fault Refusal :=
  .next (s.answer (.fdec (fdecOf s.params.fdecPermissive b0 b1 b2 b3 b4) (stopOk b4)))

/-- `ENC.LOAD(c)` (R113); while a frame is being sent the coordinate source waits. -/
def execEncLoad (c : Coordinate) (s : State) : Host.Outcome State Fault Refusal :=
  whenEnabled (s.enc.tbusy = false) (.encLoad c) s
    ((s.setEnc { tbusy := true, tidx := 0, tx_x := c.x, tx_y := c.y }).encTake c)

/-- The encoder after one byte (R114): idle after the fifth, else at the next byte. -/
def Encoder.advance (e : Encoder) : Encoder :=
  if e.tidx = 4 then { e with tbusy := false } else { e with tidx := e.tidx + 1 }

/-- `ENC.SEND` (R114); an idle encoder hands over nothing. -/
def execEncSend (s : State) : Host.Outcome State Fault Refusal :=
  whenEnabled (s.enc.tbusy = true) .encSend s ((s.txPut s.enc.nextByte).setEnc s.enc.advance)

end Sys2Proof.Machine
end

