-- ==== Sys2Proof/Machine/Fifo.lean ====
section
/-! DEFINITION. The coordinate FIFO (spec/42_position_fifo.md): `PUSH`, `POP`. -/

namespace Sys2Proof.Machine

/-- `PUSH(c, tau)`: R161 with room; without room R162 (`zero`), R164 (`finite`, `infinite`). -/
def execPush (c : Coordinate) (tau : Timeout) (s : State) : Host.Outcome State Fault Refusal :=
  if s.hasRoom then .next (s.pushNow c) else .next (s.refuseOrWait tau .queueFull (.push c tau))

/-- `POP(tau)`: R165 with something queued; without R166 (`zero`), R167 (`finite`, `infinite`). -/
def execPop (tau : Timeout) (s : State) : Host.Outcome State Fault Refusal :=
  match s.q with
  | c :: _ => .next (s.popNow c)
  | [] => .next (s.refuseOrWait tau .queueEmpty (.pop tau))

end Sys2Proof.Machine
end

