-- ==== Sys2Proof/Machine/Receiver.lean ====
section
/-! DEFINITION. The stream decoder (spec/41_stream_decoder.md): the eight cases of `RXB`, `EMIT.COMPLETE`, `EMIT.EXPIRE`. A case takes
effect where R84's table selects it and no emission is pending; elsewhere its byte goes on being offered (log entries 3, 16). -/

namespace Sys2Proof.Machine

/-- `RX.START` (R132). -/
def execRxStart (s : State) : Host.Outcome State Fault Refusal :=
  whenEnabled (s.rxReady ∧ s.dec.p = 0) .rxStart s ((s.rxTake START).setP 1)

/-- `RX.SKIP` (R131): the byte is discarded. -/
def execRxSkip (b : Byte) (s : State) : Host.Outcome State Fault Refusal :=
  whenEnabled (s.rxReady ∧ s.dec.p = 0 ∧ b ≠ START) (.rxSkip b) s (s.rxTake b)

/-- `RX.COLLECT1` (R133). -/
def execRxCollect1 (b : Byte) (s : State) : Host.Outcome State Fault Refusal :=
  whenEnabled (s.rxReady ∧ s.dec.p = 1) (.rxCollect1 b) s (((s.rxTake b).setBuf1 b).setP 2)

/-- `RX.COLLECT2` (R134). -/
def execRxCollect2 (b : Byte) (s : State) : Host.Outcome State Fault Refusal :=
  whenEnabled (s.rxReady ∧ s.dec.p = 2) (.rxCollect2 b) s (((s.rxTake b).setBuf2 b).setP 3)

/-- `RX.COLLECT3` (R135): the checksum is stored, not tested. -/
def execRxCollect3 (b : Byte) (s : State) : Host.Outcome State Fault Refusal :=
  whenEnabled (s.rxReady ∧ s.dec.p = 3) (.rxCollect3 b) s (((s.rxTake b).setBuf3 b).setP 4)

/-- `RX.ACCEPT_STOP` (R137), whatever the checksum. -/
def execRxAcceptStop (s : State) : Host.Outcome State Fault Refusal :=
  whenEnabled (s.rxReady ∧ s.dec.p = 4) .rxAcceptStop s (((s.rxTake STOP).doEmit s.dec.candidate).setP 0)

/-- `RX.ACCEPT_CHK` (R138). -/
def execRxAcceptChk (b : Byte) (s : State) : Host.Outcome State Fault Refusal :=
  whenEnabled (s.rxReady ∧ s.dec.p = 4 ∧ b ≠ STOP ∧ s.dec.chkOk = true) (.rxAcceptChk b) s
    (((s.rxTake b).doEmit s.dec.candidate).setP 0)

/-- `RX.REJECT` (R142): nothing is recorded. -/
def execRxReject (b : Byte) (s : State) : Host.Outcome State Fault Refusal :=
  whenEnabled (s.rxReady ∧ s.dec.p = 4 ∧ b ≠ STOP ∧ s.dec.chkOk = false) (.rxReject b) s ((s.rxTake b).setP 0)

/-- `EMIT.COMPLETE` (R140). -/
def execEmitComplete (s : State) : Host.Outcome State Fault Refusal :=
  match s.dec.pe with
  | some c =>
    whenEnabled (s.params.tEmit ≠ .zero ∧ s.hasRoom) .emitComplete s ((s.append c (.emit c)).setPe none)
  | none => .next (s.hold .emitComplete)

/-- `EMIT.EXPIRE` (R141). -/
def execEmitExpire (s : State) : Host.Outcome State Fault Refusal :=
  match s.dec.pe with
  | some c =>
    whenEnabled (s.params.tEmit = .finite ∧ ¬ s.hasRoom) .emitExpire s ((s.logEvent (.dropFull c)).setPe none)
  | none => .next (s.hold .emitExpire)

end Sys2Proof.Machine
end

