-- ==== Sys2Proof/Machine/System.lean ====
section
/-! DEFINITION. `RESET` (spec/70_reset_and_hazards.md R220) and the pseudo-operations of the program syntax (spec/30_encoding.md R96),
each a line that becomes the lines it stands for (log entry 12). -/

namespace Sys2Proof.Machine

/-- `RESET` (R220). -/
def execReset (s : State) : Host.Outcome State Fault Refusal :=
  .next s.resetBlock

/-- `FEED [b0, ..., bn]` (R96). -/
def execFeed (bs : List Byte) (s : State) : Host.Outcome State Fault Refusal :=
  .next (s.offerFirst (feedOffers bs))

/-- `FEEDFRAME {x, y}` (R96): `FEED ENCODE({x, y})`. -/
def execFeedFrame (c : Coordinate) (s : State) : Host.Outcome State Fault Refusal :=
  .next (s.offerFirst (feedOffers (frameOf c)))

/-- `SENDFRAME {x, y}` (R96). -/
def execSendFrame (c : Coordinate) (s : State) : Host.Outcome State Fault Refusal :=
  .next (s.offerFirst (sendFrameOffers c))

/-- `DRAIN` (R96): `POP zero`, and `DRAIN` again unless it returned `Err(QueueEmpty)`; other agents' operations may fall between. -/
def execDrain (s : State) : Host.Outcome State Fault Refusal :=
  match s.q with
  | c :: _ => .next ((s.popNow c).hold .drain)
  | [] => .next (s.fail .queueEmpty)

end Sys2Proof.Machine
end

