-- ==== Sys2Proof/Machine/Dispatch.lean ====
section
/-! DEFINITION. The meaning of each operation, one arm a constructor of `Instr`. -/

namespace Sys2Proof.Machine

def exec (i : Instr) (s : State) : Host.Outcome State Fault Refusal :=
  match i with
  | .encode c => Sys2Proof.Machine.execEncode c s
  | .chk x y => Sys2Proof.Machine.execChk x y s
  | .fdec b0 b1 b2 b3 b4 => Sys2Proof.Machine.execFdec b0 b1 b2 b3 b4 s
  | .encLoad c => Sys2Proof.Machine.execEncLoad c s
  | .encSend => Sys2Proof.Machine.execEncSend s
  | .rxStart => Sys2Proof.Machine.execRxStart s
  | .rxSkip b => Sys2Proof.Machine.execRxSkip b s
  | .rxCollect1 b => Sys2Proof.Machine.execRxCollect1 b s
  | .rxCollect2 b => Sys2Proof.Machine.execRxCollect2 b s
  | .rxCollect3 b => Sys2Proof.Machine.execRxCollect3 b s
  | .rxAcceptStop => Sys2Proof.Machine.execRxAcceptStop s
  | .rxAcceptChk b => Sys2Proof.Machine.execRxAcceptChk b s
  | .rxReject b => Sys2Proof.Machine.execRxReject b s
  | .emitComplete => Sys2Proof.Machine.execEmitComplete s
  | .emitExpire => Sys2Proof.Machine.execEmitExpire s
  | .push c tau => Sys2Proof.Machine.execPush c tau s
  | .pop tau => Sys2Proof.Machine.execPop tau s
  | .reset => Sys2Proof.Machine.execReset s
  | .feed bs => Sys2Proof.Machine.execFeed bs s
  | .feedFrame c => Sys2Proof.Machine.execFeedFrame c s
  | .sendFrame c => Sys2Proof.Machine.execSendFrame c s
  | .drain => Sys2Proof.Machine.execDrain s

end Sys2Proof.Machine
end

