-- ==== Sys2Proof/Machine/Step.lean ====
section
/-! DEFINITION. One step: the next offer is taken, the operation it selects is decoded and performed. Where nothing is offered the block
waits (spec/00_scope.md R12: "a hold that the byte source lifts"). -/

namespace Sys2Proof.Machine

/-- Decodes the offer in the state it was taken from and performs the operation. -/
def State.attempt (t : Transfer) (s : State) : Host.Outcome State Fault Refusal :=
  match decode (s.selection t) with
  | .ok i => exec i s
  | .error why => .refused (.malformed why)

/-- One step: one operation of one agent (spec/00_scope.md R10, spec/20_memory.md R58). -/
def step (s : State) : Host.Outcome State Fault Refusal :=
  match s.fetch with
  | (some t, s') => s'.attempt t
  | (none, s') => .next s'

/-- `s` with the operation of a table word placed where the next step fetches it (log entry 10). A word that is no operation is placed
as an offer the step refuses. -/
def State.withFetchWord (s : State) (nbits w : Nat) : State :=
  match decodeTableWord nbits w with
  | some i => s.placeFirst (encode i)
  | none => s.placeFirst (plainSelection .tx [0])

end Sys2Proof.Machine
end

