-- ==== Sys2Proof/Safety.lean ====
section
/-! DEFINITION. The words in which claims about runs are stated: operations one after another, what a trace says, the frame attempts
in a byte sequence, and the invariants of the state (spec/10_state.md R39, R25, spec/20_memory.md R59, R62, spec/40_frame_codec.md
R119). -/

namespace Sys2Proof

/-- R84's table: the row's condition on the position, the buffer test and the byte. -/
def RxCase.applies (k : RxCase) (pos : Fin 5) (chkOk : Bool) (b : Byte) : Prop :=
  match k with
  | .start => pos = 0 ∧ b = START
  | .skip => pos = 0 ∧ b ≠ START
  | .collect1 => pos = 1
  | .collect2 => pos = 2
  | .collect3 => pos = 3
  | .acceptStop => pos = 4 ∧ b = STOP
  | .acceptChk => pos = 4 ∧ b ≠ STOP ∧ chkOk = true
  | .reject => pos = 4 ∧ b ≠ STOP ∧ chkOk = false

end Sys2Proof

namespace Sys2Proof.Machine

/-! ### Runs -/

/-- The whole operation `RXB(b)` (spec/41_stream_decoder.md R130): the case R84 selects, performed. -/
def rxb (b : Byte) (s : State) : Host.Outcome State Fault Refusal := exec (s.selectRx b) s

/-- Operations performed one after another, up to the first stop. -/
def runOps : List Instr → State → Host.Outcome State Fault Refusal
  | [], s => .next s
  | i :: is, s =>
    match exec i s with
    | .next t => runOps is t
    | .fault r => .fault r
    | .refused r => .refused r

/-- The bytes taken one after another (`FEED`), up to the first stop. -/
def rxbs : List Byte → State → Host.Outcome State Fault Refusal
  | [], s => .next s
  | b :: bs, s =>
    match rxb b s with
    | .next t => rxbs bs t
    | .fault r => .fault r
    | .refused r => .refused r

/-- `n` steps, up to the first stop. -/
def runSteps : Nat → State → Host.Outcome State Fault Refusal
  | 0, s => .next s
  | n + 1, s =>
    match step s with
    | .next t => runSteps n t
    | .fault r => .fault r
    | .refused r => .refused r

/-! ### What a trace says -/

/-- The Coordinates that entered the FIFO, in order (spec/20_memory.md R62). -/
def appendedOf : List Event → List Coordinate :=
  List.filterMap fun e =>
    match e with
    | .emit c => some c
    | .pushed c => some c
    | .dropFull _ => none
    | .tx _ => none
    | .popped _ => none

/-- The Coordinates that left the FIFO, in order (spec/20_memory.md R62). -/
def poppedOf : List Event → List Coordinate :=
  List.filterMap fun e =>
    match e with
    | .popped c => some c
    | .emit _ => none
    | .pushed _ => none
    | .dropFull _ => none
    | .tx _ => none

/-- The byte-out stream, in order (spec/10_state.md R35). -/
def sentOf : List Event → List Byte :=
  List.filterMap fun e =>
    match e with
    | .tx b => some b
    | .emit _ => none
    | .pushed _ => none
    | .dropFull _ => none
    | .popped _ => none

/-- The Coordinates of accepted frame attempts whose emission is settled: appended, or dropped on a full FIFO
(spec/41_stream_decoder.md R139). -/
def acceptedOf : List Event → List Coordinate :=
  List.filterMap fun e =>
    match e with
    | .emit c => some c
    | .dropFull c => some c
    | .pushed _ => none
    | .tx _ => none
    | .popped _ => none

/-- The Coordinates of the accepted frame attempts so far, a pending one last: appended, dropped on a full FIFO, or held (R139). -/
def State.accepted (s : State) : List Coordinate := acceptedOf s.obs.events ++ s.dec.pe.toList

/-- The events since the last `RESET` (spec/70_reset_and_hazards.md R221). -/
def State.runEvents (s : State) : List Event := s.obs.events.drop s.obs.runStart

/-! ### The frame attempts in a byte sequence -/

/-- A fifth byte accepts the attempt (spec/41_stream_decoder.md R136): the stop byte or the checksum. -/
abbrev accepts (b1 b2 b3 b4 : Byte) : Prop := b4 = STOP ∨ b3 = checksum b1 b2

/-- The Coordinates of the accepted attempts in a byte sequence, and the bytes of the attempt it ends in. An attempt is `START` and
the four bytes after it; a byte before an attempt that is not `START` is noise (spec/00_scope.md glossary, R81 (3), R148). -/
def attempts : List Byte → List Coordinate × List Byte
  | [] => ([], [])
  | b0 :: b1 :: b2 :: b3 :: b4 :: rest =>
    if b0 = START then
      if accepts b1 b2 b3 b4 then (⟨b1, b2⟩ :: (attempts rest).1, (attempts rest).2) else attempts rest
    else attempts (b1 :: b2 :: b3 :: b4 :: rest)
  | b0 :: tail => if b0 = START then ([], b0 :: tail) else attempts tail

/-- The bytes of the current attempt that the decoder holds (spec/10_state.md R22, R23, R25). -/
def Decoder.attempt (d : Decoder) : List Byte :=
  match d.p with
  | 0 => []
  | 1 => [START]
  | 2 => [START, d.buf1]
  | 3 => [START, d.buf1, d.buf2]
  | 4 => [START, d.buf1, d.buf2, d.buf3]

/-! ### Invariants -/

/-- R39: what holds in every state reached from reset. That `p` and `tidx` are in 0 to 4 is their type; that `|q| = CAP` held when `pe`
was set is a matter of a step, not of a state. -/
structure State.Inv (s : State) : Prop where
  /-- R7, a clause of the invariant by log entry 18 -/
  capPos : 1 ≤ s.params.cap
  qBound : s.q.length ≤ s.params.cap
  noneWhenZero : s.params.tEmit = .zero → s.dec.pe = none
  pendingAtZero : s.dec.pe ≠ none → s.dec.p = 0
  /-- R25: the cells an attempt has filled hold the most recent bytes taken, its `START` before them -/
  writtenBeforeRead : s.dec.attempt <:+ s.obs.bytesIn
  /-- the current run began within the trace (log entry 8) -/
  runStarted : s.obs.runStart ≤ s.obs.events.length

/-- R62: what was popped since reset, followed by `q`, is what was appended since reset. -/
def State.fifoLedger (s : State) : Prop := poppedOf s.runEvents ++ s.q = appendedOf s.runEvents

/-- The bytes of the current frame that the encoder has not handed over (spec/10_state.md R27). -/
def Encoder.remaining (e : Encoder) : List Byte :=
  if e.tbusy then (frameOf e.coordinate).drop e.tidx.val else []

/-- R119: the frames of the loaded Coordinates are the byte-out stream since reset followed by the rest of the last one. -/
def State.txLedger (s : State) : Prop :=
  s.obs.coordsIn.flatMap frameOf = sentOf s.runEvents ++ s.enc.remaining

/-- The decoder has done what the byte-in stream since reset asks: its accepted Coordinates, with the pending one last, are those of
the accepted attempts, and it holds the bytes of the attempt the stream ends in (R25, R143, R148). -/
def State.rxLedger (s : State) : Prop :=
  acceptedOf s.runEvents ++ s.dec.pe.toList = (attempts s.obs.bytesIn).1 ∧
    s.dec.attempt = (attempts s.obs.bytesIn).2

/-- The bytes that still stand at RX, program lines expanded (R96), in the byte source's order. -/
def pendingBytes : List Transfer → List Byte :=
  List.flatMap fun t =>
    match t.port, t.data with
    | .rx, bs => bs
    | .feed, bs => bs
    | .feedFrame, [x, y] => frameOf ⟨x, y⟩
    | _, _ => []

/-- Every offer has the bytes its port takes: it decodes at every position and buffer. -/
def State.offersDecode (s : State) : Prop :=
  ∀ t ∈ s.env.offers, ∀ pos chkOk, ∃ i, decode ⟨pos, chkOk, t⟩ = .ok i

end Sys2Proof.Machine
end

