-- ==== Sys2Proof/Certificates/Slice0/Obligations.lean ====
section
/-! DEFINITION. The statements for the provers. Each docstring names the rule of spec/ it formalises; a clause that rests on a choice of
the model names the log entry. `obs.bytesIn` is the byte-in stream taken since reset (spec/10_state.md R35 (1)), `obs.coordsIn` the Coordinates
loaded since reset (spec/40_frame_codec.md R119), `obs.results` the values returned: what a run observes, read by no operation (log entry 8). -/

open Sys2Proof Sys2Proof.Machine Host

/-! ### Encoding, selection and the step -/

/-- R84, R85, log entry 9: decoding gives back every well-formed operation from its encoding, and an offer that decodes is the encoding
of a well-formed operation: the same port and bytes, and for a case of `RXB` the same position. -/
def Obligations.DecodeAndEncodeAgree : Prop :=
  (∀ i : Instr, i.wf = true → decode (encode i) = .ok i) ∧
  (∀ (sel : Selection) (i : Instr), decode sel = .ok i →
    i.wf = true ∧ (encode i).offer = sel.offer ∧ (sel.offer.port = .rx → (encode i).pos = sel.pos))

/-- R84: the drawn match and mask words, in their order of priority, pick exactly the case whose condition in the table holds; exactly
one does; and it is the case the decoder performs. -/
def Obligations.SelectionWordsPickTheRxCase : Prop :=
  ∀ (pos : Fin 5) (chkOk : Bool) (b : Byte), ∃ k : RxCase,
    (∀ k' : RxCase, k'.applies pos chkOk b ↔ k' = k) ∧
    caseOfWord (selWord pos b) chkOk = some k ∧
    decodeRx pos chkOk b = k.instr b

/-- R80, R84, log entry 10: the word the table draws for a well-formed operation decodes to that operation. Not for `RX.REJECT`, whose
word is `RX.ACCEPT_CHK`'s, told apart by the buffer only; nor for an `FDEC` of a canonical frame, whose word is `ENCODE`'s. -/
def Obligations.TableWordsDecode : Prop :=
  ∀ (i : Instr) (nbits w : Nat), i.wf = true → tableWord i = some (nbits, w) →
    (∀ b, i ≠ .rxReject b) →
    (∀ b0 b1 b2 b3 b4, i = .fdec b0 b1 b2 b3 b4 → canonicalFrame b0 b1 b2 b3 b4 = false) →
    decodeTableWord nbits w = some i

/-- Words written out from the drawings of R80 and R84 (a sanity statement), and the position fields 5, 6, 7, which no row has (R22).
Two readings are the model's convention, log entry 10: the 16-bit word `0x400`, which R84 gives to `RX.ACCEPT_CHK` and to `RX.REJECT`, is
read as `RX.ACCEPT_CHK`; a 40-bit word is `ENCODE` where its frame is canonical and `FDEC` elsewhere. -/
def Obligations.SampleWordsDecode : Prop :=
  decodeTableWord 16 0b00010101010 = some .rxStart ∧
  decodeTableWord 16 0b00000000001 = some (.rxSkip 0x01) ∧
  decodeTableWord 16 0b00100010000 = some (.rxCollect1 0x10) ∧
  decodeTableWord 16 0b01000100000 = some (.rxCollect2 0x20) ∧
  decodeTableWord 16 0b01110101010 = some (.rxCollect3 0xAA) ∧
  decodeTableWord 16 0b10001010101 = some .rxAcceptStop ∧
  decodeTableWord 16 0b10000000000 = some (.rxAcceptChk 0x00) ∧
  decodeTableWord 40 0xAA10203055 = some (.encode ⟨0x10, 0x20⟩) ∧
  decodeTableWord 40 0x00102030FF = some (.fdec 0x00 0x10 0x20 0x30 0xFF) ∧
  decodeTableWord 16 0b10100000000 = none ∧
  decodeTableWord 16 0b11000000000 = none ∧
  decodeTableWord 16 0b11100000000 = none

/-- A step performs the operation that the fetched offer selects in the state the offer was taken from (log entries 1, 7); an offer
that decodes to nothing is refused (log entry 9); with nothing offered the machine waits (R12). -/
def Obligations.StepRunsTheDecodedOperation : Prop :=
  ∀ s : State,
    (∀ t i, s.fetch.1 = some t → decode ⟨s.fetch.2.dec.p, s.fetch.2.dec.chkOk, t⟩ = .ok i → step s = exec i s.fetch.2) ∧
    (∀ t why, s.fetch.1 = some t → decode ⟨s.fetch.2.dec.p, s.fetch.2.dec.chkOk, t⟩ = .error why →
      step s = .refused (.malformed why)) ∧
    (s.fetch.1 = none → step s = .next s.fetch.2) ∧
    s.fetch.2.dec = s.dec ∧ s.fetch.2.enc = s.enc ∧ s.fetch.2.q = s.q ∧ s.fetch.2.params = s.params ∧
    s.fetch.2.obs = s.obs ∧ s.fetch.2.draw = s.draw

/-- R220, R198 (d) for the reset line; log entries 2 and 7 for the rest: an asserted line is a `RESET`, alone, with every offer left
standing; else the agent whose turn it is moves; else the first offer. -/
def Obligations.FetchPriority : Prop :=
  ∀ s : State,
    (s.env.rst = true → step s = exec .reset { s with env.rst := false }) ∧
    (∀ t ts, s.env.rst = false → s.env.turns = [] → s.env.offers = t :: ts →
      s.fetch = (some t, { s with env.offers := ts })) ∧
    (∀ a as, s.env.rst = false → s.env.turns = a :: as →
      s.fetch.1 = s.env.offers.find? (fun t => decide (Port.agent t.port = a)) ∧ s.fetch.2.env.turns = as) ∧
    (s.env.rst = false → s.env.turns = [] → s.env.offers = [] → step s = .next s)

/-- R58: "operations of one agent happen in that agent's own order". The offer taken is the first of its agent, and no other offer is
taken, moved within its agent's order, or added. -/
def Obligations.FetchKeepsEachAgentsOrder : Prop :=
  ∀ (s : State) (t : Transfer) (a : Agent), s.env.rst = false → s.fetch.1 = some t →
    s.env.offers.filter (fun u => decide (Port.agent u.port = a)) =
      (if Port.agent t.port = a then [t] else []) ++
        s.fetch.2.env.offers.filter (fun u => decide (Port.agent u.port = a))

/-- R59: bytes are taken in arrival order, each exactly once: the bytes taken since reset followed by those still offered at RX (program
lines expanded, R96) are the same before and after every step that is no `RESET`. -/
def Obligations.BytesKeepTheirOrder : Prop :=
  ∀ s t : State, step s = .next t → s.fetch.1 ≠ some (encode .reset).offer →
    t.obs.bytesIn ++ pendingBytes t.env.offers = s.obs.bytesIn ++ pendingBytes s.env.offers

/-- R190, R201: no fault ever, and no stop of any kind while the offers are of their interfaces' shape; the offers keep that shape. -/
def Obligations.StepNeverStops : Prop :=
  ∀ s : State, (∀ f, step s ≠ .fault f) ∧ (s.offersDecode → ∃ t, step s = .next t ∧ t.offersDecode)

/-! ### The frame codec -/

/-- R111: `ENCODE(c)` returns the five bytes, changes nothing, and is injective. -/
def Obligations.EncodeReturnsTheFrame : Prop :=
  (∀ (c : Coordinate) (s : State), exec (.encode c) s = .next { s with
    obs := { s.obs with results := s.obs.results ++ [.frame [0xAA, c.x, c.y, c.x ^^^ c.y, 0x55]] } }) ∧
  (∀ c d : Coordinate, frameOf c = frameOf d → c = d)

/-- R112: `CHK(x, y)` returns `x ^ y` and changes nothing. -/
def Obligations.ChkReturnsTheXor : Prop :=
  ∀ (x y : Byte) (s : State), exec (.chk x y) s = .next { s with
    obs := { s.obs with results := s.obs.results ++ [.byte (x ^^^ y)] } }

/-- R115, R116: `FDEC` returns `BadStart`, else `Ok` on the checksum, else `Ok` on the stop byte where the parameter allows it, else
`ChecksumMismatch`; `stop_ok` beside it; and changes nothing. -/
def Obligations.FdecJudgesInOrder : Prop :=
  ∀ (b0 b1 b2 b3 b4 : Byte) (s : State), ∃ r : FdecResult,
    exec (.fdec b0 b1 b2 b3 b4) s = .next { s with
      obs := { s.obs with results := s.obs.results ++ [.fdec r (decide (b4 = 0x55))] } } ∧
    (b0 ≠ 0xAA → r = .err .badStart) ∧
    (b0 = 0xAA → b3 = b1 ^^^ b2 → r = .ok ⟨b1, b2⟩) ∧
    (b0 = 0xAA → b3 ≠ b1 ^^^ b2 → s.params.fdecPermissive = true → b4 = 0x55 → r = .ok ⟨b1, b2⟩) ∧
    (b0 = 0xAA → b3 ≠ b1 ^^^ b2 → s.params.fdecPermissive = true → b4 ≠ 0x55 → r = .err .checksumMismatch) ∧
    (b0 = 0xAA → b3 ≠ b1 ^^^ b2 → s.params.fdecPermissive = false → r = .err .checksumMismatch)

/-- R110: the three functions read no state (only a parameter), write none and produce no event: in any two states of one parameter
they return the same value, and it is all they add. -/
def Obligations.CodecFunctionsArePure : Prop :=
  ∀ (i : Instr), (∃ c, i = .encode c) ∨ (∃ x y, i = .chk x y) ∨ (∃ b0 b1 b2 b3 b4, i = .fdec b0 b1 b2 b3 b4) →
    ∀ permissive : Bool, ∃ r : Result, ∀ s : State, s.params.fdecPermissive = permissive →
      exec i s = .next { s with obs := { s.obs with results := s.obs.results ++ [r] } }

/-- R117: `FDEC(ENCODE(c)) = Ok(c)` with `stop_ok = 1`, under either value of `FDEC_PERMISSIVE`. -/
def Obligations.FdecOfEncodeIsOk : Prop :=
  ∀ (c : Coordinate) (s : State), ∃ b0 b1 b2 b3 b4, frameOf c = [b0, b1, b2, b3, b4] ∧
    exec (.fdec b0 b1 b2 b3 b4) s = .next { s with
      obs := { s.obs with results := s.obs.results ++ [.fdec (.ok c) true] } }

/-- R118: byte 3 of a frame is the XOR of bytes 1 and 2, byte 0 is `0xAA`, byte 4 is `0x55`. -/
def Obligations.FrameChecksumAndSentinels : Prop :=
  ∀ c : Coordinate, ∃ b0 b1 b2 b3 b4, frameOf c = [b0, b1, b2, b3, b4] ∧
    b3 = b1 ^^^ b2 ∧ b0 = 0xAA ∧ b4 = 0x55

/-- R81 (2): the canonical frames are exactly the outputs of `ENCODE`. -/
def Obligations.CanonicalFramesAreTheEncodings : Prop :=
  ∀ b0 b1 b2 b3 b4 : Byte,
    (b0 = 0xAA ∧ b4 = 0x55 ∧ b3 = b1 ^^^ b2) ↔ ∃ c : Coordinate, frameOf c = [b0, b1, b2, b3, b4]

/-- R120: from `p = 0` with nothing pending, whatever room the FIFO has. On five bytes that begin with `0xAA` the stream decoder accepts
exactly when `b4 == 0x55 or b3 == b1 ^ b2` (accepted: appended, dropped on a full FIFO, or held pending), so every `Ok` of `FDEC` is also an
accepted attempt of the same Coordinate, and under `FDEC_PERMISSIVE` the two agree; with room it is emitted. A first byte other than `0xAA`
is skipped, where `FDEC` returns `BadStart`. -/
def Obligations.FdecAgainstTheStreamDecoder : Prop :=
  ∀ (b1 b2 b3 b4 : Byte) (s : State), s.dec.p = 0 → s.dec.pe = none →
    (∃ t, rxbs [0xAA, b1, b2, b3, b4] s = .next t ∧ t.dec.p = 0 ∧
      (t.accepted = s.accepted ++ [⟨b1, b2⟩] ↔ (b4 = 0x55 ∨ b3 = b1 ^^^ b2)) ∧
      (¬ (b4 = 0x55 ∨ b3 = b1 ^^^ b2) → t.accepted = s.accepted ∧ t.q = s.q ∧ t.obs.events = s.obs.events) ∧
      (s.hasRoom → (b4 = 0x55 ∨ b3 = b1 ^^^ b2) →
        t.dec.pe = none ∧ t.q = s.q ++ [⟨b1, b2⟩] ∧ t.obs.events = s.obs.events ++ [.emit ⟨b1, b2⟩]) ∧
      (fdecOf false 0xAA b1 b2 b3 b4 = .ok ⟨b1, b2⟩ → t.accepted = s.accepted ++ [⟨b1, b2⟩]) ∧
      (fdecOf true 0xAA b1 b2 b3 b4 = .ok ⟨b1, b2⟩ ↔ t.accepted = s.accepted ++ [⟨b1, b2⟩])) ∧
    (∀ b0, b0 ≠ 0xAA →
      rxb b0 s = .next { s with obs := { s.obs with bytesIn := s.obs.bytesIn ++ [b0] } } ∧
      ∀ permissive, fdecOf permissive b0 b1 b2 b3 b4 = .err .badStart)

/-! ### The serialising encoder -/

/-- R113: at idle `ENC.LOAD(c)` latches `c` and starts a frame; while a frame is being sent it has no effect on the block, and is
neither merged into that frame nor answered. -/
def Obligations.EncLoadLatchesOrWaits : Prop :=
  ∀ (c : Coordinate) (s : State),
    (s.enc.tbusy = false → exec (.encLoad c) s = .next { s with
      enc := { tbusy := true, tidx := 0, tx_x := c.x, tx_y := c.y }
      obs := { s.obs with coordsIn := s.obs.coordsIn ++ [c] } }) ∧
    (s.enc.tbusy = true → ∃ t, exec (.encLoad c) s = .next t ∧
      t.enc = s.enc ∧ t.dec = s.dec ∧ t.q = s.q ∧ t.params = s.params ∧ t.obs = s.obs ∧ t.draw = s.draw)

/-- R114: `ENC.SEND` hands over byte `tidx` of the frame and moves on, or ends the frame with the fifth byte; an idle encoder hands over
nothing. -/
def Obligations.EncSendHandsOverTheNextByte : Prop :=
  ∀ s : State,
    (s.enc.tbusy = true → ∃ b, (frameOf ⟨s.enc.tx_x, s.enc.tx_y⟩)[s.enc.tidx.val]? = some b ∧
      exec .encSend s = .next { s with
        enc := if s.enc.tidx = 4 then { s.enc with tbusy := false } else { s.enc with tidx := s.enc.tidx + 1 }
        obs := { s.obs with events := s.obs.events ++ [.tx b] } }) ∧
    (s.enc.tbusy = false → ∃ t, exec .encSend s = .next t ∧
      t.enc = s.enc ∧ t.dec = s.dec ∧ t.q = s.q ∧ t.params = s.params ∧ t.obs = s.obs ∧ t.draw = s.draw)

/-- Log entry 3 (the model's form of waiting; R113, R114, R140, R141 say when each is enabled): `ENC.LOAD` while a frame is being sent,
`ENC.SEND` at idle, and the two emission steps where they are not enabled change nothing but that the offer stands again. -/
def Obligations.OperationsNotEnabledAreHeld : Prop :=
  ∀ s : State,
    (∀ c, s.enc.tbusy = true → exec (.encLoad c) s = .next { s with
      env := { s.env with offers := ⟨.enc, [c.x, c.y]⟩ :: s.env.offers } }) ∧
    (s.enc.tbusy = false → exec .encSend s = .next { s with
      env := { s.env with offers := ⟨.tx, []⟩ :: s.env.offers } }) ∧
    (s.dec.pe = none ∨ s.params.tEmit = .zero ∨ ¬ s.q.length < s.params.cap →
      exec .emitComplete s = .next { s with
        env := { s.env with offers := ⟨.emitComplete, []⟩ :: s.env.offers } }) ∧
    (s.dec.pe = none ∨ s.params.tEmit ≠ .finite ∨ s.q.length < s.params.cap →
      exec .emitExpire s = .next { s with
        env := { s.env with offers := ⟨.emitExpire, []⟩ :: s.env.offers } })

/-- R119, first sentence: after `ENC.LOAD(c)` at idle, five `ENC.SEND`s put out the five bytes of `ENCODE(c)` in order and leave the
encoder idle, and after fewer than five it is busy, so that a load waits. -/
def Obligations.FramesLeaveWhole : Prop :=
  ∀ (c d : Coordinate) (s : State), s.enc.tbusy = false → ∀ n ≤ 5,
    ∃ t, runOps (.encLoad c :: List.replicate n .encSend) s = .next t ∧
      t.obs.events = s.obs.events ++ ((frameOf c).take n).map .tx ∧
      (t.enc.tbusy = true ↔ n < 5) ∧
      (n < 5 → ∃ u, exec (.encLoad d) t = .next u ∧ u.enc = t.enc ∧ u.obs = t.obs)

/-- R119: the byte-out stream since reset is the concatenation of the frames of the loaded Coordinates, less what of the last one is
still to come: every step keeps it. -/
def Obligations.StepKeepsTheTxLedger : Prop :=
  ∀ s t : State, s.Inv → s.txLedger → step s = .next t → t.txLedger

/-- R27, R40, R55: only `ENC.LOAD`, `ENC.SEND` and `RESET` change the encoder's state or what it has taken. -/
def Obligations.EncoderStateIsOwned : Prop :=
  ∀ (i : Instr) (s t : State), exec i s = .next t → i ≠ .reset → (∀ c, i ≠ .encLoad c) → i ≠ .encSend →
    t.enc = s.enc ∧ t.obs.coordsIn = s.obs.coordsIn ∧ sentOf t.obs.events = sentOf s.obs.events

/-! ### The stream decoder -/

/-- R131: `RX.SKIP` discards its byte and changes nothing else. -/
def Obligations.RxSkipDiscardsTheByte : Prop :=
  ∀ (b : Byte) (s : State), s.dec.pe = none → s.dec.p = 0 → b ≠ 0xAA →
    exec (.rxSkip b) s = .next { s with obs := { s.obs with bytesIn := s.obs.bytesIn ++ [b] } }

/-- R132: `RX.START` gives `p = 1` and stores nothing. -/
def Obligations.RxStartBeginsAnAttempt : Prop :=
  ∀ s : State, s.dec.pe = none → s.dec.p = 0 →
    exec .rxStart s = .next { s with
      dec := { s.dec with p := 1 }
      obs := { s.obs with bytesIn := s.obs.bytesIn ++ [0xAA] } }

/-- R133, R134, R135: at `p = k` in 1 to 3 any byte is stored in `buf[k]` and `p` becomes `k + 1`. -/
def Obligations.RxCollectStoresAnyByte : Prop :=
  ∀ (b : Byte) (s : State), s.dec.pe = none →
    (s.dec.p = 1 → exec (.rxCollect1 b) s = .next { s with
      dec := { s.dec with buf1 := b, p := 2 }
      obs := { s.obs with bytesIn := s.obs.bytesIn ++ [b] } }) ∧
    (s.dec.p = 2 → exec (.rxCollect2 b) s = .next { s with
      dec := { s.dec with buf2 := b, p := 3 }
      obs := { s.obs with bytesIn := s.obs.bytesIn ++ [b] } }) ∧
    (s.dec.p = 3 → exec (.rxCollect3 b) s = .next { s with
      dec := { s.dec with buf3 := b, p := 4 }
      obs := { s.obs with bytesIn := s.obs.bytesIn ++ [b] } })

/-- R137, R138 with R139: an accepted attempt with room appends `{buf[1], buf[2]}` and returns to `p = 0`; with a full FIFO it is
dropped under `T_EMIT = zero` and held pending otherwise. The fifth byte is consumed and changes nothing else. -/
def Obligations.RxAcceptEmits : Prop :=
  ∀ (i : Instr) (b : Byte) (s : State), s.dec.pe = none → s.dec.p = 4 →
    ((i = .rxAcceptStop ∧ b = 0x55) ∨
      (i = .rxAcceptChk b ∧ b ≠ 0x55 ∧ s.dec.buf3 = s.dec.buf1 ^^^ s.dec.buf2)) →
    (s.q.length < s.params.cap → exec i s = .next { s with
      dec := { s.dec with p := 0 }
      q := s.q ++ [⟨s.dec.buf1, s.dec.buf2⟩]
      obs := { s.obs with
        events := s.obs.events ++ [.emit ⟨s.dec.buf1, s.dec.buf2⟩], bytesIn := s.obs.bytesIn ++ [b] } }) ∧
    (¬ s.q.length < s.params.cap → s.params.tEmit = .zero → exec i s = .next { s with
      dec := { s.dec with p := 0 }
      obs := { s.obs with
        events := s.obs.events ++ [.dropFull ⟨s.dec.buf1, s.dec.buf2⟩], bytesIn := s.obs.bytesIn ++ [b] } }) ∧
    (¬ s.q.length < s.params.cap → s.params.tEmit ≠ .zero → exec i s = .next { s with
      dec := { s.dec with p := 0, pe := some ⟨s.dec.buf1, s.dec.buf2⟩ }
      obs := { s.obs with bytesIn := s.obs.bytesIn ++ [b] } })

/-- R142: `RX.REJECT` returns to `p = 0` and records nothing. -/
def Obligations.RxRejectRecordsNothing : Prop :=
  ∀ (b : Byte) (s : State), s.dec.pe = none → s.dec.p = 4 → b ≠ 0x55 → s.dec.buf3 ≠ s.dec.buf1 ^^^ s.dec.buf2 →
    exec (.rxReject b) s = .next { s with
      dec := { s.dec with p := 0 }
      obs := { s.obs with bytesIn := s.obs.bytesIn ++ [b] } }

/-- R140: under `T_EMIT != zero` with room the pending Coordinate enters the FIFO and `RXB` is enabled again; elsewhere `EMIT.COMPLETE` is
not enabled and has no effect on the block. -/
def Obligations.EmitCompleteAppendsThePending : Prop :=
  ∀ s : State,
    (∀ c, s.dec.pe = some c → s.params.tEmit ≠ .zero → s.q.length < s.params.cap →
      exec .emitComplete s = .next { s with
        dec := { s.dec with pe := none }
        q := s.q ++ [c]
        obs := { s.obs with events := s.obs.events ++ [.emit c] } }) ∧
    (s.dec.pe = none ∨ s.params.tEmit = .zero ∨ ¬ s.q.length < s.params.cap → ∃ t, exec .emitComplete s = .next t ∧
      t.dec = s.dec ∧ t.enc = s.enc ∧ t.q = s.q ∧ t.params = s.params ∧ t.obs = s.obs ∧ t.draw = s.draw)

/-- R141: under `T_EMIT = finite` with `|q| = CAP` the pending Coordinate is given up; with room, or under another class, or with
nothing pending, `EMIT.EXPIRE` is not enabled and has no effect on the block. -/
def Obligations.EmitExpireDropsThePending : Prop :=
  ∀ s : State,
    (∀ c, s.dec.pe = some c → s.params.tEmit = .finite → s.q.length = s.params.cap →
      exec .emitExpire s = .next { s with
        dec := { s.dec with pe := none }
        obs := { s.obs with events := s.obs.events ++ [.dropFull c] } }) ∧
    (s.dec.pe = none ∨ s.params.tEmit ≠ .finite ∨ s.q.length < s.params.cap → ∃ t, exec .emitExpire s = .next t ∧
      t.dec = s.dec ∧ t.enc = s.enc ∧ t.q = s.q ∧ t.params = s.params ∧ t.obs = s.obs ∧ t.draw = s.draw)

/-- R130, R143: for every state with nothing pending and every byte, `RXB(b)` is the pseudocode of R130: it answers a next state with
the position, the buffer, the queue, the event and the pending emission the pseudocode gives, one byte taken, all else kept. -/
def Obligations.RxbFollowsThePseudocode : Prop :=
  ∀ (b : Byte) (s : State), s.dec.pe = none → ∃ t, rxb b s = .next t ∧
    t.obs.bytesIn = s.obs.bytesIn ++ [b] ∧
    (t.dec.p = match s.dec.p with
      | 0 => if b = 0xAA then 1 else 0
      | 1 => 2
      | 2 => 3
      | 3 => 4
      | 4 => 0) ∧
    t.dec.buf1 = (if s.dec.p = 1 then b else s.dec.buf1) ∧
    t.dec.buf2 = (if s.dec.p = 2 then b else s.dec.buf2) ∧
    t.dec.buf3 = (if s.dec.p = 3 then b else s.dec.buf3) ∧
    (let u := (if s.dec.p = 4 ∧ (b = 0x55 ∨ s.dec.buf1 ^^^ s.dec.buf2 = s.dec.buf3)
        then s.doEmit ⟨s.dec.buf1, s.dec.buf2⟩ else s);
      t.q = u.q ∧ t.obs.events = u.obs.events ∧ t.dec.pe = u.dec.pe) ∧
    t.params = s.params ∧ t.enc = s.enc ∧ t.env = s.env ∧ t.draw = s.draw ∧
    t.obs.results = s.obs.results ∧ t.obs.coordsIn = s.obs.coordsIn ∧ t.obs.runStart = s.obs.runStart

/-- R30, D23: while an emission is pending the decoder takes no byte: whatever the byte, it goes on standing at RX and nothing else
changes. -/
def Obligations.NoByteTakenWhilePending : Prop :=
  ∀ (b : Byte) (s : State), s.dec.pe ≠ none →
    rxb b s = .next { s with env := { s.env with offers := ⟨.rx, [b]⟩ :: s.env.offers } }

/-- R84, log entry 16: a case of `RXB` performed where the table selects another, or while an emission is pending, has no effect: its
byte goes on standing at RX. -/
def Obligations.UnselectedCaseIsHeld : Prop :=
  ∀ (pos : Fin 5) (chkOk : Bool) (b : Byte) (s : State), s.dec.pe ≠ none ∨ s.selectRx b ≠ decodeRx pos chkOk b →
    exec (decodeRx pos chkOk b) s = .next { s with env := { s.env with offers := ⟨.rx, [b]⟩ :: s.env.offers } }

/-- R144, R136: of the cases of `RXB` only one performed at `p = 4` touches the FIFO, the trace or the pending emission: the emission
falls in the operation that takes the fifth byte, neither earlier nor later. There an attempt is accepted whatever room the FIFO has, and
with room emitted. -/
def Obligations.EmissionAtTheFifthByteOnly : Prop :=
  ∀ (b : Byte) (s t : State), rxb b s = .next t →
    (s.dec.p ≠ 4 → t.q = s.q ∧ t.obs.events = s.obs.events ∧ t.dec.pe = s.dec.pe) ∧
    (s.dec.p = 4 → s.dec.pe = none → (b = 0x55 ∨ s.dec.buf3 = s.dec.buf1 ^^^ s.dec.buf2) →
      t.accepted = s.accepted ++ [⟨s.dec.buf1, s.dec.buf2⟩] ∧
      (s.hasRoom → t.q = s.q ++ [⟨s.dec.buf1, s.dec.buf2⟩] ∧
        t.obs.events = s.obs.events ++ [.emit ⟨s.dec.buf1, s.dec.buf2⟩]))

/-- R148: from `p = k >= 1` the decoder is back at `p = 0` after exactly `5 - k` bytes, and at `p = 0` at least once in any five
consecutive bytes, under every `T_EMIT`. The premise is R39's: a pending emission is held at `p = 0`, where a further byte is not taken. -/
def Obligations.ReturnToZero : Prop :=
  ∀ (bs : List Byte) (s : State), (s.dec.pe ≠ none → s.dec.p = 0) →
    (s.dec.p ≠ 0 → bs.length < 5 - s.dec.p.val → ∃ t, rxbs bs s = .next t ∧ t.dec.p ≠ 0) ∧
    (s.dec.p ≠ 0 → bs.length = 5 - s.dec.p.val → ∃ t, rxbs bs s = .next t ∧ t.dec.p = 0) ∧
    (bs.length = 5 → ∃ n t, 1 ≤ n ∧ n ≤ 5 ∧ rxbs (bs.take n) s = .next t ∧ t.dec.p = 0)

/-- R147, first sentence: an aligned decoder that is fed `ENCODE(c)` performs exactly one `DoEmit(c)` and is at `p = 0` again; nothing
but the scratch buffer and the bytes taken has changed beside it. -/
def Obligations.AlignedDecoderAcceptsAFrame : Prop :=
  ∀ (c : Coordinate) (s : State), s.dec.p = 0 → s.dec.pe = none →
    rxbs (frameOf c) s = .next
      (let u := s.doEmit c;
      { u with
        dec := { p := 0, buf1 := c.x, buf2 := c.y, buf3 := c.x ^^^ c.y, pe := u.dec.pe }
        obs := { u.obs with bytesIn := s.obs.bytesIn ++ frameOf c } })

/-- R147, second sentence: an aligned decoder is fed canonical frames with any number of bytes other than `0xAA` before each. With room
for all of them it emits exactly their Coordinates, in order, under every `T_EMIT`: the FIFO and the trace say so. Whatever the room, under
`T_EMIT = zero`, where no emission stalls the stream, it accepts exactly their Coordinates, in order. -/
def Obligations.AlignedDecoderAcceptsAStream : Prop :=
  ∀ (frames : List (List Byte × Coordinate)) (s : State), s.dec.p = 0 → s.dec.pe = none →
    (∀ f ∈ frames, ∀ b ∈ f.1, b ≠ 0xAA) →
    (s.q.length + frames.length ≤ s.params.cap →
      ∃ t, rxbs (frames.flatMap fun f => f.1 ++ frameOf f.2) s = .next t ∧ t.dec.p = 0 ∧ t.dec.pe = none ∧
        t.q = s.q ++ frames.map (·.2) ∧ t.obs.events = s.obs.events ++ frames.map fun f => .emit f.2) ∧
    (s.params.tEmit = .zero →
      ∃ t, rxbs (frames.flatMap fun f => f.1 ++ frameOf f.2) s = .next t ∧ t.dec.p = 0 ∧
        t.accepted = s.accepted ++ frames.map (·.2))

/-- R143, R148, R25: the byte-at-a-time decoder agrees with the frame attempts of the byte-in stream since reset: its accepted
Coordinates are theirs, in order, and it holds exactly the bytes of the attempt the stream ends in. Every step keeps it. -/
def Obligations.StepKeepsTheRxLedger : Prop :=
  ∀ s t : State, s.Inv → s.rxLedger → step s = .next t → t.rxLedger

/-- R230: a decoder at `p = 0` that missed the first byte of a frame `[0xAA, 0xAA, y, 0xAA ^ y, 0x55]` repeated for ever never emits and
never realigns. -/
def Obligations.MisalignmentCanLastForEver : Prop :=
  ∀ (y : Byte) (n : Nat) (s : State), s.dec.p = 0 → s.dec.pe = none →
    ∃ t, rxbs (List.replicate n ([0xAA, y, 0xAA ^^^ y, 0x55, 0xAA] : List Byte)).flatten s = .next t ∧
      t.dec.p = 0 ∧ t.q = s.q ∧ t.obs.events = s.obs.events ∧ t.dec.pe = none

/-- R231 (b): four or more bytes other than `0xAA` bring the decoder to `p = 0` from every position, under every `T_EMIT`. The premise is
R39's: a pending emission is held at `p = 0`, where the decoder stays while it waits. -/
def Obligations.AGapRealigns : Prop :=
  ∀ (gap : List Byte) (s : State), (s.dec.pe ≠ none → s.dec.p = 0) → 4 ≤ gap.length → (∀ b ∈ gap, b ≠ 0xAA) →
    ∃ t, rxbs gap s = .next t ∧ t.dec.p = 0

/-- R40, R55: only the cases of `RXB`, the two emission steps and `RESET` change the decoder's state; only the cases of `RXB` take
bytes. -/
def Obligations.DecoderStateIsOwned : Prop :=
  ∀ (i : Instr) (s t : State), exec i s = .next t → i ≠ .reset → (∀ pos chkOk b, i ≠ decodeRx pos chkOk b) →
    t.obs.bytesIn = s.obs.bytesIn ∧ t.dec.p = s.dec.p ∧ t.dec.buf1 = s.dec.buf1 ∧ t.dec.buf2 = s.dec.buf2 ∧
    t.dec.buf3 = s.dec.buf3 ∧ (i ≠ .emitComplete → i ≠ .emitExpire → t.dec = s.dec)

/-- R27, R40, R172: the encoder cannot influence the decoder or the FIFO: two states that differ in the encoder, the offers and the
observation only are taken by every operation to states with the same decoder and the same queue. -/
def Obligations.EncoderDoesNotInfluenceTheReceiver : Prop :=
  ∀ (i : Instr) (s s' t t' : State), exec i s = .next t → exec i s' = .next t' →
    s.params = s'.params → s.dec = s'.dec → s.q = s'.q → s.draw = s'.draw →
    t.params = t'.params ∧ t.dec = t'.dec ∧ t.q = t'.q ∧ t.draw = t'.draw

/-- R27, R40: the decoder and the FIFO cannot influence the encoder. -/
def Obligations.ReceiverDoesNotInfluenceTheEncoder : Prop :=
  ∀ (i : Instr) (s s' t t' : State), exec i s = .next t → exec i s' = .next t' →
    s.enc = s'.enc → s.draw = s'.draw → sentOf s.obs.events = sentOf s'.obs.events →
    t.enc = t'.enc ∧ sentOf t.obs.events = sentOf t'.obs.events

/-! ### The FIFO -/

/-- R161: with room a `PUSH` of any timeout class appends at the tail and returns `Ok`. -/
def Obligations.PushWithRoomAppends : Prop :=
  ∀ (c : Coordinate) (tau : Timeout) (s : State), s.q.length < s.params.cap →
    exec (.push c tau) s = .next { s with
      q := s.q ++ [c]
      obs := { s.obs with events := s.obs.events ++ [.pushed c], results := s.obs.results ++ [.pushOk] } }

/-- R162, R195: a full FIFO refuses a `PUSH` that does not wait, with `QueueFull`, and is unchanged. -/
def Obligations.PushOnFullFailsAtOnce : Prop :=
  ∀ (c : Coordinate) (s : State), s.q.length = s.params.cap →
    exec (.push c .zero) s = .next { s with
      obs := { s.obs with results := s.obs.results ++ [.err .queueFull] } }

/-- R164, R163: on a full FIFO an `infinite` push waits, its offer standing; a `finite` one waits or gives up with `QueueFull`, by a
free choice (log entry 6); the block's state is unchanged. -/
def Obligations.PushOnFullWaits : Prop :=
  ∀ (c : Coordinate) (s : State), s.q.length = s.params.cap →
    exec (.push c .infinite) s = .next { s with
      env := { s.env with offers := ⟨.push, [c.x, c.y, 2]⟩ :: s.env.offers } } ∧
    (exec (.push c .finite) s = .next { s with
        env := { s.env with offers := ⟨.push, [c.x, c.y, 1]⟩ :: s.env.offers }, draw := s.draw + 1 } ∨
      exec (.push c .finite) s = .next { s with
        obs := { s.obs with results := s.obs.results ++ [.err .queueFull] }, draw := s.draw + 1 })

/-- R165, R171: a `POP` of any timeout class removes and returns the head, the oldest entry; the others keep their order. -/
def Obligations.PopReturnsTheOldest : Prop :=
  ∀ (c : Coordinate) (rest : List Coordinate) (tau : Timeout) (s : State), s.q = c :: rest →
    exec (.pop tau) s = .next { s with
      q := rest
      obs := { s.obs with events := s.obs.events ++ [.popped c], results := s.obs.results ++ [.popOk c] } }

/-- R166, R196: an empty FIFO answers a `POP` that does not wait with `QueueEmpty`, and is unchanged. -/
def Obligations.PopOnEmptyFailsAtOnce : Prop :=
  ∀ s : State, s.q = [] →
    exec (.pop .zero) s = .next { s with
      obs := { s.obs with results := s.obs.results ++ [.err .queueEmpty] } }

/-- R167, R163: on an empty FIFO an `infinite` pop waits, its request standing; a `finite` one waits or gives up with `QueueEmpty`, by a
free choice (log entry 6); the block's state is unchanged. -/
def Obligations.PopOnEmptyWaits : Prop :=
  ∀ s : State, s.q = [] →
    exec (.pop .infinite) s = .next { s with
      env := { s.env with offers := ⟨.pop, [2]⟩ :: s.env.offers } } ∧
    (exec (.pop .finite) s = .next { s with
        env := { s.env with offers := ⟨.pop, [1]⟩ :: s.env.offers }, draw := s.draw + 1 } ∨
      exec (.pop .finite) s = .next { s with
        obs := { s.obs with results := s.obs.results ++ [.err .queueEmpty] }, draw := s.draw + 1 })

/-- R62, R61: what was popped since reset followed by the queue is what was appended since reset, in order, whoever appended it. Every
step keeps it; so `|q|` is the number of appends less the number of pops (R170). -/
def Obligations.StepKeepsTheFifoLedger : Prop :=
  ∀ s t : State, s.Inv → s.fifoLedger → step s = .next t →
    t.fifoLedger ∧ t.q.length + (poppedOf t.runEvents).length = (appendedOf t.runEvents).length

/-- R28, R55, R160: an operation other than `RESET` leaves the queue, appends one entry at the tail, or removes the head, with the event
that says so; no other access exists. -/
def Obligations.QueueChangesOnlyAtItsEnds : Prop :=
  ∀ (i : Instr) (s t : State), exec i s = .next t → i ≠ .reset →
    (t.q = s.q ∧ appendedOf t.obs.events = appendedOf s.obs.events ∧ poppedOf t.obs.events = poppedOf s.obs.events) ∨
    (∃ c, t.q = s.q ++ [c] ∧ s.q.length < s.params.cap ∧
      (t.obs.events = s.obs.events ++ [.emit c] ∨ t.obs.events = s.obs.events ++ [.pushed c])) ∨
    (∃ c, s.q = c :: t.q ∧ t.obs.events = s.obs.events ++ [.popped c])

/-- R169, R96: a `DRAIN` of `n` entries with no other agent moving is `n` successful pops, oldest first, and one failing pop, one a
step; it ends with the FIFO empty. -/
def Obligations.DrainDeliversEachOnce : Prop :=
  ∀ (s : State) (rest : List Transfer), s.env.rst = false → s.env.turns = [] → s.env.offers = (encode .drain).offer :: rest →
    runSteps (s.q.length + 1) s = .next { s with
      q := []
      env := { s.env with offers := rest }
      obs := { s.obs with
        events := s.obs.events ++ s.q.map .popped
        results := s.obs.results ++ s.q.map .popOk ++ [.err .queueEmpty] } }

/-- R32: the flags and the count are what the table says, and a call that does not wait fails exactly where its flag holds (in states
within the capacity, R39). -/
def Obligations.FlagsSayWhatTheFifoDoes : Prop :=
  ∀ s : State, s.Inv →
    (s.fifoEmpty = true ↔ s.q = []) ∧ (s.fifoFull = true ↔ s.q.length = s.params.cap) ∧ s.fifoCount = s.q.length ∧
    s.fifoCount < 2 ^ s.fifoCountWidth ∧ (s.peValid = true ↔ s.dec.pe ≠ none) ∧ (s.params.tEmit = .zero → s.peValid = false) ∧ s.tbusy = s.enc.tbusy ∧
    (∃ t, exec (.pop .zero) s = .next t ∧
      (t.obs.results = s.obs.results ++ [.err .queueEmpty] ↔ s.fifoEmpty = true)) ∧
    (∀ c, ∃ t, exec (.push c .zero) s = .next t ∧
      (t.obs.results = s.obs.results ++ [.err .queueFull] ↔ s.fifoFull = true))

/-- R38: the output pins say which interfaces are enabled and carry the data of the transfer that would happen: a byte is taken exactly
while `rx_ready`, the byte sink sees the byte `ENC.SEND` would hand over, the consumer the Coordinate `POP` would return. -/
def Obligations.PinsShowTheInterfaces : Prop :=
  ∀ s : State,
    (s.pins.rx_ready = true ↔ s.dec.pe = none) ∧ (s.pins.enc_ready = true ↔ s.enc.tbusy = false) ∧
    (s.pins.tx_valid = true ↔ s.enc.tbusy = true) ∧ (s.pins.push_ready = true ↔ s.q.length < s.params.cap) ∧
    (s.pins.pop_valid = true ↔ s.q ≠ []) ∧ s.pins.fifo_count = s.q.length ∧ s.pins.fifo_full = s.fifoFull ∧
    s.pins.fifo_empty = s.fifoEmpty ∧
    (∀ b, ∃ t, rxb b s = .next t ∧ (t.obs.bytesIn = s.obs.bytesIn ++ [b] ↔ s.pins.rx_ready = true)) ∧
    (s.pins.tx_valid = true → ∃ b t, s.pins.tx_data = some b ∧ exec .encSend s = .next t ∧
      t.obs.events = s.obs.events ++ [.tx b]) ∧
    (s.pins.pop_valid = true → ∃ x y t, s.pins.pop_x = some x ∧ s.pins.pop_y = some y ∧ exec (.pop .zero) s = .next t ∧
      t.obs.results = s.obs.results ++ [.popOk ⟨x, y⟩])

/-! ### Reset, parameters, program lines, invariants -/

/-- R220 with R37: `RESET` is enabled in every state and gives the state of R37 with its flags (given `CAP >= 1`); it returns nothing and
produces no event, changes no parameter, and with the reset line asserted it is all that the step does, whatever is offered. -/
def Obligations.ResetClearsTheBlock : Prop :=
  ∀ s : State,
    (∃ t, exec .reset s = .next t ∧
      t.dec.p = 0 ∧ t.dec.pe = none ∧ t.q = [] ∧ t.enc.tbusy = false ∧ t.params = s.params ∧
      t.obs.events = s.obs.events ∧ t.obs.results = s.obs.results ∧
      (1 ≤ s.params.cap →
        t.fifoEmpty = true ∧ t.fifoFull = false ∧ t.fifoCount = 0 ∧ t.peValid = false ∧ t.tbusy = false)) ∧
    (s.env.rst = true → step s = exec .reset { s with env := { s.env with rst := false } })

/-- R37 as one state, with the model's own parts: the unspecified cells are whatever they are (log entry 5), the offers stand (log entry
7), and a new run of bytes and Coordinates begins (log entry 8). -/
def Obligations.ResetGivesTheResetState : Prop :=
  ∀ s : State, ∃ (b1 b2 b3 x y : Byte) (n : Fin 5) (k : Nat), exec .reset s = .next {
    params := s.params
    dec := { p := 0, buf1 := b1, buf2 := b2, buf3 := b3, pe := none }
    enc := { tbusy := false, tidx := n, tx_x := x, tx_y := y }
    q := []
    env := s.env
    obs := { events := s.obs.events, results := s.obs.results, bytesIn := [], coordsIn := [],
             runStart := s.obs.events.length }
    draw := k }

/-- R7, R34: no step changes a parameter. -/
def Obligations.ParametersNeverChange : Prop :=
  ∀ s t : State, step s = .next t → t.params = s.params

/-- R96: a pseudo-operation becomes the lines it stands for, in front of the others; `DRAIN` performs one `POP zero` and stands again
unless it returned `QueueEmpty`. -/
def Obligations.PseudoOperationsExpand : Prop :=
  ∀ s : State,
    (∀ bs, exec (.feed bs) s = .next { s with
      env := { s.env with offers := bs.map (fun b => ⟨.rx, [b]⟩) ++ s.env.offers } }) ∧
    (∀ c, exec (.feedFrame c) s = .next { s with
      env := { s.env with
        offers := [⟨.rx, [0xAA]⟩, ⟨.rx, [c.x]⟩, ⟨.rx, [c.y]⟩, ⟨.rx, [c.x ^^^ c.y]⟩, ⟨.rx, [0x55]⟩] ++ s.env.offers } }) ∧
    (∀ c, exec (.sendFrame c) s = .next { s with
      env := { s.env with
        offers := [⟨.enc, [c.x, c.y]⟩, ⟨.tx, []⟩, ⟨.tx, []⟩, ⟨.tx, []⟩, ⟨.tx, []⟩, ⟨.tx, []⟩] ++ s.env.offers } }) ∧
    (s.q = [] → exec .drain s = .next { s with
      obs := { s.obs with results := s.obs.results ++ [.err .queueEmpty] } }) ∧
    (∀ c rest, s.q = c :: rest → exec .drain s = .next { s with
      q := rest
      env := { s.env with offers := ⟨.drain, []⟩ :: s.env.offers }
      obs := { s.obs with events := s.obs.events ++ [.popped c], results := s.obs.results ++ [.popOk c] } })

/-- R39: what holds in every reachable state, R25 among it, is kept by every step, from every state in which it holds; and a step that
sets the pending emission begins with `|q| = CAP` and leaves it so. `CAP >= 1` is a clause of the invariant by log entry 18, and that the
current run began within the trace by log entry 8. -/
def Obligations.StepKeepsTheInvariant : Prop :=
  ∀ s t : State, s.Inv → step s = .next t →
    t.Inv ∧ (s.dec.pe = none → t.dec.pe ≠ none → s.q.length = s.params.cap ∧ t.q.length = t.params.cap)

/-- R39, R62, R119, R25: the invariant and the three ledgers hold right after reset. -/
def Obligations.ResetMeetsTheInvariants : Prop :=
  State.reset.Inv ∧ State.reset.fifoLedger ∧ State.reset.txLedger ∧ State.reset.rxLedger
end

