-- ==== Sys2Proof/Laws/PerInstr.lean ====
section
/-! SUPPORT. Statements about every operation as syntax, one lemma a constructor. -/

namespace Sys2Proof.Laws

/-! ### Decoding what was encoded -/

/-- A well-formed operation is the one its encoding selects. -/
def RoundTrip.Statement (i : Instr) : Prop := i.wf = true → decode (encode i) = .ok i

theorem RoundTrip.timeout (tau : Timeout) : timeoutOf (timeoutCode tau) = some tau := by cases tau <;> decide

theorem RoundTrip.encode (c : Coordinate) : RoundTrip.Statement (.encode c) := by
  intro _; simp [Sys2Proof.encode, decode, plainSelection, fiveBytes, frameOf, canonicalFrame]

theorem RoundTrip.chk (x y : Byte) : RoundTrip.Statement (.chk x y) := fun _ => rfl

theorem RoundTrip.fdec (b0 b1 b2 b3 b4 : Byte) : RoundTrip.Statement (.fdec b0 b1 b2 b3 b4) := fun _ => rfl

theorem RoundTrip.encLoad (c : Coordinate) : RoundTrip.Statement (.encLoad c) := fun _ => rfl

theorem RoundTrip.encSend : RoundTrip.Statement .encSend := fun _ => rfl

theorem RoundTrip.rxStart : RoundTrip.Statement .rxStart := fun _ => rfl

theorem RoundTrip.rxSkip (b : Byte) : RoundTrip.Statement (.rxSkip b) := by
  intro h
  have hb : b ≠ START := by simpa [Instr.wf] using h
  simpa [Sys2Proof.encode, decode, rxSelection, oneByte, decodeRx] using hb

theorem RoundTrip.rxCollect1 (b : Byte) : RoundTrip.Statement (.rxCollect1 b) := fun _ => rfl

theorem RoundTrip.rxCollect2 (b : Byte) : RoundTrip.Statement (.rxCollect2 b) := fun _ => rfl

theorem RoundTrip.rxCollect3 (b : Byte) : RoundTrip.Statement (.rxCollect3 b) := fun _ => rfl

theorem RoundTrip.rxAcceptStop : RoundTrip.Statement .rxAcceptStop := fun _ => rfl

theorem RoundTrip.rxAcceptChk (b : Byte) : RoundTrip.Statement (.rxAcceptChk b) := by
  intro h
  have hb : b ≠ STOP := by simpa [Instr.wf] using h
  simpa [Sys2Proof.encode, decode, rxSelection, oneByte, decodeRx] using hb

theorem RoundTrip.rxReject (b : Byte) : RoundTrip.Statement (.rxReject b) := by
  intro h
  have hb : b ≠ STOP := by simpa [Instr.wf] using h
  simpa [Sys2Proof.encode, decode, rxSelection, oneByte, decodeRx] using hb

theorem RoundTrip.emitComplete : RoundTrip.Statement .emitComplete := fun _ => rfl

theorem RoundTrip.emitExpire : RoundTrip.Statement .emitExpire := fun _ => rfl

theorem RoundTrip.push (c : Coordinate) (tau : Timeout) : RoundTrip.Statement (.push c tau) := by
  intro _; simp [Sys2Proof.encode, decode, plainSelection, threeBytes, withTimeout, RoundTrip.timeout]

theorem RoundTrip.pop (tau : Timeout) : RoundTrip.Statement (.pop tau) := by
  intro _; simp [Sys2Proof.encode, decode, plainSelection, oneByte, withTimeout, RoundTrip.timeout]

theorem RoundTrip.reset : RoundTrip.Statement .reset := fun _ => rfl

theorem RoundTrip.feed (bs : List Byte) : RoundTrip.Statement (.feed bs) := fun _ => rfl

theorem RoundTrip.feedFrame (c : Coordinate) : RoundTrip.Statement (.feedFrame c) := fun _ => rfl

theorem RoundTrip.sendFrame (c : Coordinate) : RoundTrip.Statement (.sendFrame c) := fun _ => rfl

theorem RoundTrip.drain : RoundTrip.Statement .drain := fun _ => rfl

end Sys2Proof.Laws
end

