-- ==== Sys2Proof/Laws/Decode.lean ====
section
/-! SUPPORT. What an offer that decodes looks like, one lemma for each form of offer. -/

namespace Sys2Proof

theorem noBytes_ok {t : Transfer} {i j : Instr} (h : noBytes t i = .ok j) : t.data = [] ∧ j = i := by
  unfold noBytes at h
  split at h <;> cases h
  exact ⟨‹_›, rfl⟩

theorem oneByte_ok {t : Transfer} {k : Byte → Except Reject Instr} {j : Instr} (h : oneByte t k = .ok j) :
    ∃ a, t.data = [a] ∧ k a = .ok j := by
  unfold oneByte at h
  split at h
  · exact ⟨_, ‹_›, h⟩
  · cases h

theorem twoBytes_ok {t : Transfer} {k : Byte → Byte → Except Reject Instr} {j : Instr} (h : twoBytes t k = .ok j) :
    ∃ a b, t.data = [a, b] ∧ k a b = .ok j := by
  unfold twoBytes at h
  split at h
  · exact ⟨_, _, ‹_›, h⟩
  · cases h

theorem threeBytes_ok {t : Transfer} {k : Byte → Byte → Byte → Except Reject Instr} {j : Instr}
    (h : threeBytes t k = .ok j) : ∃ a b c, t.data = [a, b, c] ∧ k a b c = .ok j := by
  unfold threeBytes at h
  split at h
  · exact ⟨_, _, _, ‹_›, h⟩
  · cases h

theorem fiveBytes_ok {t : Transfer} {k : Byte → Byte → Byte → Byte → Byte → Except Reject Instr} {j : Instr}
    (h : fiveBytes t k = .ok j) : ∃ a b c d e, t.data = [a, b, c, d, e] ∧ k a b c d e = .ok j := by
  unfold fiveBytes at h
  split at h
  · exact ⟨_, _, _, _, _, ‹_›, h⟩
  · cases h

theorem timeoutOf_some {code : Byte} {tau : Timeout} (h : timeoutOf code = some tau) : timeoutCode tau = code := by
  unfold timeoutOf at h
  split at h
  · cases h; exact Eq.symm ‹_›
  · split at h
    · cases h; exact Eq.symm ‹_›
    · split at h
      · cases h; exact Eq.symm ‹_›
      · cases h

theorem withTimeout_ok {code : Byte} {k : Timeout → Instr} {j : Instr} (h : withTimeout code k = .ok j) :
    ∃ tau, timeoutCode tau = code ∧ j = k tau := by
  unfold withTimeout at h
  split at h <;> cases h
  exact ⟨_, timeoutOf_some ‹_›, rfl⟩

end Sys2Proof
end

