-- ==== Sys2Proof/Laws/State.lean ====
section
/-! SUPPORT. One lemma for each part of State and each update of Machine/Ops.lean: what the part is after the update. -/

namespace Sys2Proof.Machine

section
variable (s : State)

@[simp] theorem State.logEvent_params (e : Event) : (s.logEvent e).params = s.params := rfl
@[simp] theorem State.logEvent_dec (e : Event) : (s.logEvent e).dec = s.dec := rfl
@[simp] theorem State.logEvent_enc (e : Event) : (s.logEvent e).enc = s.enc := rfl
@[simp] theorem State.logEvent_q (e : Event) : (s.logEvent e).q = s.q := rfl
@[simp] theorem State.logEvent_env (e : Event) : (s.logEvent e).env = s.env := rfl
@[simp] theorem State.logEvent_obs (e : Event) : (s.logEvent e).obs = { s.obs with events := s.obs.events ++ [e] } := rfl
@[simp] theorem State.logEvent_draw (e : Event) : (s.logEvent e).draw = s.draw := rfl

@[simp] theorem State.answer_params (r : Result) : (s.answer r).params = s.params := rfl
@[simp] theorem State.answer_dec (r : Result) : (s.answer r).dec = s.dec := rfl
@[simp] theorem State.answer_enc (r : Result) : (s.answer r).enc = s.enc := rfl
@[simp] theorem State.answer_q (r : Result) : (s.answer r).q = s.q := rfl
@[simp] theorem State.answer_env (r : Result) : (s.answer r).env = s.env := rfl
@[simp] theorem State.answer_obs (r : Result) : (s.answer r).obs = { s.obs with results := s.obs.results ++ [r] } := rfl
@[simp] theorem State.answer_draw (r : Result) : (s.answer r).draw = s.draw := rfl

@[simp] theorem State.fail_params (e : QueueError) : (s.fail e).params = s.params := rfl
@[simp] theorem State.fail_dec (e : QueueError) : (s.fail e).dec = s.dec := rfl
@[simp] theorem State.fail_enc (e : QueueError) : (s.fail e).enc = s.enc := rfl
@[simp] theorem State.fail_q (e : QueueError) : (s.fail e).q = s.q := rfl
@[simp] theorem State.fail_env (e : QueueError) : (s.fail e).env = s.env := rfl
@[simp] theorem State.fail_obs (e : QueueError) : (s.fail e).obs = { s.obs with results := s.obs.results ++ [.err e] } := rfl
@[simp] theorem State.fail_draw (e : QueueError) : (s.fail e).draw = s.draw := rfl

@[simp] theorem State.offerFirst_params (ts : List Transfer) : (s.offerFirst ts).params = s.params := rfl
@[simp] theorem State.offerFirst_dec (ts : List Transfer) : (s.offerFirst ts).dec = s.dec := rfl
@[simp] theorem State.offerFirst_enc (ts : List Transfer) : (s.offerFirst ts).enc = s.enc := rfl
@[simp] theorem State.offerFirst_q (ts : List Transfer) : (s.offerFirst ts).q = s.q := rfl
@[simp] theorem State.offerFirst_env (ts : List Transfer) : (s.offerFirst ts).env = { s.env with offers := ts ++ s.env.offers } := rfl
@[simp] theorem State.offerFirst_obs (ts : List Transfer) : (s.offerFirst ts).obs = s.obs := rfl
@[simp] theorem State.offerFirst_draw (ts : List Transfer) : (s.offerFirst ts).draw = s.draw := rfl

@[simp] theorem State.hold_params (i : Instr) : (s.hold i).params = s.params := rfl
@[simp] theorem State.hold_dec (i : Instr) : (s.hold i).dec = s.dec := rfl
@[simp] theorem State.hold_enc (i : Instr) : (s.hold i).enc = s.enc := rfl
@[simp] theorem State.hold_q (i : Instr) : (s.hold i).q = s.q := rfl
@[simp] theorem State.hold_env (i : Instr) : (s.hold i).env = { s.env with offers := (encode i).offer :: s.env.offers } := rfl
@[simp] theorem State.hold_obs (i : Instr) : (s.hold i).obs = s.obs := rfl
@[simp] theorem State.hold_draw (i : Instr) : (s.hold i).draw = s.draw := rfl

@[simp] theorem State.setP_params (v : Fin 5) : (s.setP v).params = s.params := rfl
@[simp] theorem State.setP_dec (v : Fin 5) : (s.setP v).dec = { s.dec with p := v } := rfl
@[simp] theorem State.setP_enc (v : Fin 5) : (s.setP v).enc = s.enc := rfl
@[simp] theorem State.setP_q (v : Fin 5) : (s.setP v).q = s.q := rfl
@[simp] theorem State.setP_env (v : Fin 5) : (s.setP v).env = s.env := rfl
@[simp] theorem State.setP_obs (v : Fin 5) : (s.setP v).obs = s.obs := rfl
@[simp] theorem State.setP_draw (v : Fin 5) : (s.setP v).draw = s.draw := rfl

@[simp] theorem State.setPe_params (v : Option Coordinate) : (s.setPe v).params = s.params := rfl
@[simp] theorem State.setPe_dec (v : Option Coordinate) : (s.setPe v).dec = { s.dec with pe := v } := rfl
@[simp] theorem State.setPe_enc (v : Option Coordinate) : (s.setPe v).enc = s.enc := rfl
@[simp] theorem State.setPe_q (v : Option Coordinate) : (s.setPe v).q = s.q := rfl
@[simp] theorem State.setPe_env (v : Option Coordinate) : (s.setPe v).env = s.env := rfl
@[simp] theorem State.setPe_obs (v : Option Coordinate) : (s.setPe v).obs = s.obs := rfl
@[simp] theorem State.setPe_draw (v : Option Coordinate) : (s.setPe v).draw = s.draw := rfl

@[simp] theorem State.setBuf1_params (b : Byte) : (s.setBuf1 b).params = s.params := rfl
@[simp] theorem State.setBuf1_dec (b : Byte) : (s.setBuf1 b).dec = { s.dec with buf1 := b } := rfl
@[simp] theorem State.setBuf1_enc (b : Byte) : (s.setBuf1 b).enc = s.enc := rfl
@[simp] theorem State.setBuf1_q (b : Byte) : (s.setBuf1 b).q = s.q := rfl
@[simp] theorem State.setBuf1_env (b : Byte) : (s.setBuf1 b).env = s.env := rfl
@[simp] theorem State.setBuf1_obs (b : Byte) : (s.setBuf1 b).obs = s.obs := rfl
@[simp] theorem State.setBuf1_draw (b : Byte) : (s.setBuf1 b).draw = s.draw := rfl

@[simp] theorem State.setBuf2_params (b : Byte) : (s.setBuf2 b).params = s.params := rfl
@[simp] theorem State.setBuf2_dec (b : Byte) : (s.setBuf2 b).dec = { s.dec with buf2 := b } := rfl
@[simp] theorem State.setBuf2_enc (b : Byte) : (s.setBuf2 b).enc = s.enc := rfl
@[simp] theorem State.setBuf2_q (b : Byte) : (s.setBuf2 b).q = s.q := rfl
@[simp] theorem State.setBuf2_env (b : Byte) : (s.setBuf2 b).env = s.env := rfl
@[simp] theorem State.setBuf2_obs (b : Byte) : (s.setBuf2 b).obs = s.obs := rfl
@[simp] theorem State.setBuf2_draw (b : Byte) : (s.setBuf2 b).draw = s.draw := rfl

@[simp] theorem State.setBuf3_params (b : Byte) : (s.setBuf3 b).params = s.params := rfl
@[simp] theorem State.setBuf3_dec (b : Byte) : (s.setBuf3 b).dec = { s.dec with buf3 := b } := rfl
@[simp] theorem State.setBuf3_enc (b : Byte) : (s.setBuf3 b).enc = s.enc := rfl
@[simp] theorem State.setBuf3_q (b : Byte) : (s.setBuf3 b).q = s.q := rfl
@[simp] theorem State.setBuf3_env (b : Byte) : (s.setBuf3 b).env = s.env := rfl
@[simp] theorem State.setBuf3_obs (b : Byte) : (s.setBuf3 b).obs = s.obs := rfl
@[simp] theorem State.setBuf3_draw (b : Byte) : (s.setBuf3 b).draw = s.draw := rfl

@[simp] theorem State.setEnc_params (e : Encoder) : (s.setEnc e).params = s.params := rfl
@[simp] theorem State.setEnc_dec (e : Encoder) : (s.setEnc e).dec = s.dec := rfl
@[simp] theorem State.setEnc_enc (e : Encoder) : (s.setEnc e).enc = e := rfl
@[simp] theorem State.setEnc_q (e : Encoder) : (s.setEnc e).q = s.q := rfl
@[simp] theorem State.setEnc_env (e : Encoder) : (s.setEnc e).env = s.env := rfl
@[simp] theorem State.setEnc_obs (e : Encoder) : (s.setEnc e).obs = s.obs := rfl
@[simp] theorem State.setEnc_draw (e : Encoder) : (s.setEnc e).draw = s.draw := rfl

@[simp] theorem State.qAppend_params (c : Coordinate) : (s.qAppend c).params = s.params := rfl
@[simp] theorem State.qAppend_dec (c : Coordinate) : (s.qAppend c).dec = s.dec := rfl
@[simp] theorem State.qAppend_enc (c : Coordinate) : (s.qAppend c).enc = s.enc := rfl
@[simp] theorem State.qAppend_q (c : Coordinate) : (s.qAppend c).q = s.q ++ [c] := rfl
@[simp] theorem State.qAppend_env (c : Coordinate) : (s.qAppend c).env = s.env := rfl
@[simp] theorem State.qAppend_obs (c : Coordinate) : (s.qAppend c).obs = s.obs := rfl
@[simp] theorem State.qAppend_draw (c : Coordinate) : (s.qAppend c).draw = s.draw := rfl

@[simp] theorem State.qRemove_params : s.qRemove.params = s.params := rfl
@[simp] theorem State.qRemove_dec : s.qRemove.dec = s.dec := rfl
@[simp] theorem State.qRemove_enc : s.qRemove.enc = s.enc := rfl
@[simp] theorem State.qRemove_q : s.qRemove.q = s.q.tail := rfl
@[simp] theorem State.qRemove_env : s.qRemove.env = s.env := rfl
@[simp] theorem State.qRemove_obs : s.qRemove.obs = s.obs := rfl
@[simp] theorem State.qRemove_draw : s.qRemove.draw = s.draw := rfl

@[simp] theorem State.rxTake_params (b : Byte) : (s.rxTake b).params = s.params := rfl
@[simp] theorem State.rxTake_dec (b : Byte) : (s.rxTake b).dec = s.dec := rfl
@[simp] theorem State.rxTake_enc (b : Byte) : (s.rxTake b).enc = s.enc := rfl
@[simp] theorem State.rxTake_q (b : Byte) : (s.rxTake b).q = s.q := rfl
@[simp] theorem State.rxTake_env (b : Byte) : (s.rxTake b).env = s.env := rfl
@[simp] theorem State.rxTake_obs (b : Byte) : (s.rxTake b).obs = { s.obs with bytesIn := s.obs.bytesIn ++ [b] } := rfl
@[simp] theorem State.rxTake_draw (b : Byte) : (s.rxTake b).draw = s.draw := rfl

@[simp] theorem State.txPut_params (b : Byte) : (s.txPut b).params = s.params := rfl
@[simp] theorem State.txPut_dec (b : Byte) : (s.txPut b).dec = s.dec := rfl
@[simp] theorem State.txPut_enc (b : Byte) : (s.txPut b).enc = s.enc := rfl
@[simp] theorem State.txPut_q (b : Byte) : (s.txPut b).q = s.q := rfl
@[simp] theorem State.txPut_env (b : Byte) : (s.txPut b).env = s.env := rfl
@[simp] theorem State.txPut_obs (b : Byte) : (s.txPut b).obs = { s.obs with events := s.obs.events ++ [.tx b] } := rfl
@[simp] theorem State.txPut_draw (b : Byte) : (s.txPut b).draw = s.draw := rfl

@[simp] theorem State.encTake_params (c : Coordinate) : (s.encTake c).params = s.params := rfl
@[simp] theorem State.encTake_dec (c : Coordinate) : (s.encTake c).dec = s.dec := rfl
@[simp] theorem State.encTake_enc (c : Coordinate) : (s.encTake c).enc = s.enc := rfl
@[simp] theorem State.encTake_q (c : Coordinate) : (s.encTake c).q = s.q := rfl
@[simp] theorem State.encTake_env (c : Coordinate) : (s.encTake c).env = s.env := rfl
@[simp] theorem State.encTake_obs (c : Coordinate) : (s.encTake c).obs = { s.obs with coordsIn := s.obs.coordsIn ++ [c] } := rfl
@[simp] theorem State.encTake_draw (c : Coordinate) : (s.encTake c).draw = s.draw := rfl

@[simp] theorem State.drawn_params (n : Nat) : (s.drawn n).params = s.params := rfl
@[simp] theorem State.drawn_dec (n : Nat) : (s.drawn n).dec = s.dec := rfl
@[simp] theorem State.drawn_enc (n : Nat) : (s.drawn n).enc = s.enc := rfl
@[simp] theorem State.drawn_q (n : Nat) : (s.drawn n).q = s.q := rfl
@[simp] theorem State.drawn_env (n : Nat) : (s.drawn n).env = s.env := rfl
@[simp] theorem State.drawn_obs (n : Nat) : (s.drawn n).obs = s.obs := rfl
@[simp] theorem State.drawn_draw (n : Nat) : (s.drawn n).draw = s.draw + n := rfl

@[simp] theorem State.append_params (c : Coordinate) (e : Event) : (s.append c e).params = s.params := rfl
@[simp] theorem State.append_dec (c : Coordinate) (e : Event) : (s.append c e).dec = s.dec := rfl
@[simp] theorem State.append_enc (c : Coordinate) (e : Event) : (s.append c e).enc = s.enc := rfl
@[simp] theorem State.append_q (c : Coordinate) (e : Event) : (s.append c e).q = s.q ++ [c] := rfl
@[simp] theorem State.append_env (c : Coordinate) (e : Event) : (s.append c e).env = s.env := rfl
@[simp] theorem State.append_obs (c : Coordinate) (e : Event) : (s.append c e).obs = { s.obs with events := s.obs.events ++ [e] } := rfl
@[simp] theorem State.append_draw (c : Coordinate) (e : Event) : (s.append c e).draw = s.draw := rfl

@[simp] theorem State.pushNow_params (c : Coordinate) : (s.pushNow c).params = s.params := rfl
@[simp] theorem State.pushNow_dec (c : Coordinate) : (s.pushNow c).dec = s.dec := rfl
@[simp] theorem State.pushNow_enc (c : Coordinate) : (s.pushNow c).enc = s.enc := rfl
@[simp] theorem State.pushNow_q (c : Coordinate) : (s.pushNow c).q = s.q ++ [c] := rfl
@[simp] theorem State.pushNow_env (c : Coordinate) : (s.pushNow c).env = s.env := rfl
@[simp] theorem State.pushNow_obs (c : Coordinate) : (s.pushNow c).obs = { s.obs with events := s.obs.events ++ [.pushed c], results := s.obs.results ++ [.pushOk] } := rfl
@[simp] theorem State.pushNow_draw (c : Coordinate) : (s.pushNow c).draw = s.draw := rfl

@[simp] theorem State.popNow_params (c : Coordinate) : (s.popNow c).params = s.params := rfl
@[simp] theorem State.popNow_dec (c : Coordinate) : (s.popNow c).dec = s.dec := rfl
@[simp] theorem State.popNow_enc (c : Coordinate) : (s.popNow c).enc = s.enc := rfl
@[simp] theorem State.popNow_q (c : Coordinate) : (s.popNow c).q = s.q.tail := rfl
@[simp] theorem State.popNow_env (c : Coordinate) : (s.popNow c).env = s.env := rfl
@[simp] theorem State.popNow_obs (c : Coordinate) : (s.popNow c).obs = { s.obs with events := s.obs.events ++ [.popped c], results := s.obs.results ++ [.popOk c] } := rfl
@[simp] theorem State.popNow_draw (c : Coordinate) : (s.popNow c).draw = s.draw := rfl

@[simp] theorem State.resetBlock_params : s.resetBlock.params = s.params := rfl
@[simp] theorem State.resetBlock_dec : s.resetBlock.dec = Decoder.reset s.draw := rfl
@[simp] theorem State.resetBlock_enc : s.resetBlock.enc = Encoder.reset s.draw := rfl
@[simp] theorem State.resetBlock_q : s.resetBlock.q = [] := rfl
@[simp] theorem State.resetBlock_env : s.resetBlock.env = s.env := rfl
@[simp] theorem State.resetBlock_obs : s.resetBlock.obs = { s.obs with bytesIn := [], coordsIn := [], runStart := s.obs.events.length } := rfl
@[simp] theorem State.resetBlock_draw : s.resetBlock.draw = s.draw + resetDraws := rfl

end

end Sys2Proof.Machine
end

