-- ==== Sys2Proof/Laws/Ops.lean ====
section
/-! SUPPORT. For each shared operation, all it can do; and that an operation always answers a next state. -/

namespace Sys2Proof.Machine

/-- Where `whenEnabled` answers `t`, the operation took effect enabled, or was held. -/
theorem whenEnabled_cases {P : Prop} [Decidable P] {i : Instr} {s e t : State}
    (h : whenEnabled P i s e = .next t) : (P ∧ t = e) ∨ (¬ P ∧ t = s.hold i) := by
  unfold whenEnabled at h
  split at h <;> cases h
  · exact .inl ⟨‹_›, rfl⟩
  · exact .inr ⟨‹_›, rfl⟩

theorem whenEnabled_pos {P : Prop} [Decidable P] {i : Instr} {s e : State} (h : P) :
    whenEnabled P i s e = .next e := if_pos h

theorem whenEnabled_neg {P : Prop} [Decidable P] {i : Instr} {s e : State} (h : ¬ P) :
    whenEnabled P i s e = .next (s.hold i) := if_neg h

/-- `DoEmit` with room, with no room and no waiting, with no room and waiting (spec/41_stream_decoder.md R139). -/
theorem State.doEmit_cases (c : Coordinate) (s : State) :
    (s.hasRoom ∧ s.doEmit c = s.append c (.emit c)) ∨
    (¬ s.hasRoom ∧ s.params.tEmit = .zero ∧ s.doEmit c = s.logEvent (.dropFull c)) ∨
    (¬ s.hasRoom ∧ s.params.tEmit ≠ .zero ∧ s.doEmit c = s.setPe (some c)) := by
  unfold State.doEmit
  split
  · exact .inl ⟨‹_›, rfl⟩
  · split <;> simp_all

/-! `DoEmit` touches the queue, the trace and the pending emission, nothing else. -/

@[simp] theorem State.doEmit_params (c : Coordinate) (s : State) : (s.doEmit c).params = s.params := by
  rcases s.doEmit_cases c with ⟨_, h⟩ | ⟨_, _, h⟩ | ⟨_, _, h⟩ <;> simp [h]

@[simp] theorem State.doEmit_enc (c : Coordinate) (s : State) : (s.doEmit c).enc = s.enc := by
  rcases s.doEmit_cases c with ⟨_, h⟩ | ⟨_, _, h⟩ | ⟨_, _, h⟩ <;> simp [h]

@[simp] theorem State.doEmit_env (c : Coordinate) (s : State) : (s.doEmit c).env = s.env := by
  rcases s.doEmit_cases c with ⟨_, h⟩ | ⟨_, _, h⟩ | ⟨_, _, h⟩ <;> simp [h]

@[simp] theorem State.doEmit_draw (c : Coordinate) (s : State) : (s.doEmit c).draw = s.draw := by
  rcases s.doEmit_cases c with ⟨_, h⟩ | ⟨_, _, h⟩ | ⟨_, _, h⟩ <;> simp [h]

/-- The decoder's other cells and the rest of the observation are kept by `DoEmit`. -/
theorem State.doEmit_keeps (c : Coordinate) (s : State) :
    (s.doEmit c).dec = { s.dec with pe := (s.doEmit c).dec.pe } ∧
    (s.doEmit c).obs = { s.obs with events := (s.doEmit c).obs.events } := by
  rcases s.doEmit_cases c with ⟨_, h⟩ | ⟨_, _, h⟩ | ⟨_, _, h⟩ <;> simp [h]

@[simp] theorem State.doEmit_bytesIn (c : Coordinate) (s : State) : (s.doEmit c).obs.bytesIn = s.obs.bytesIn := by
  rw [(s.doEmit_keeps c).2]

@[simp] theorem State.doEmit_coordsIn (c : Coordinate) (s : State) :
    (s.doEmit c).obs.coordsIn = s.obs.coordsIn := by
  rw [(s.doEmit_keeps c).2]

@[simp] theorem State.doEmit_results (c : Coordinate) (s : State) : (s.doEmit c).obs.results = s.obs.results := by
  rw [(s.doEmit_keeps c).2]

@[simp] theorem State.doEmit_runStart (c : Coordinate) (s : State) :
    (s.doEmit c).obs.runStart = s.obs.runStart := by
  rw [(s.doEmit_keeps c).2]

/-- A call that cannot proceed fails or is held, whatever the free value (spec/42_position_fifo.md R163). -/
theorem State.refuseOrWait_cases (tau : Timeout) (e : QueueError) (i : Instr) (s : State) :
    (tau = .zero ∧ s.refuseOrWait tau e i = s.fail e) ∨
    (tau = .finite ∧ s.refuseOrWait tau e i = (s.fail e).drawn 1) ∨
    (tau = .finite ∧ s.refuseOrWait tau e i = (s.hold i).drawn 1) ∨
    (tau = .infinite ∧ s.refuseOrWait tau e i = s.hold i) := by
  unfold State.refuseOrWait
  cases tau <;> simp
  cases Config.finiteExpires s.draw <;> simp

/-- The offer taken is the agent's, and only it is taken. -/
theorem takeOffer_some {a : Agent} {ts : List Transfer} {t : Transfer} {rest : List Transfer}
    (h : takeOffer a ts = some (t, rest)) :
    Port.agent t.port = a ∧ ∃ front back, ts = front ++ t :: back ∧ rest = front ++ back ∧
      ∀ u ∈ front, Port.agent u.port ≠ a := by
  induction ts generalizing rest with
  | nil => simp [takeOffer] at h
  | cons u us ih =>
    unfold takeOffer at h
    split at h
    · obtain ⟨rfl, rfl⟩ : u = t ∧ us = rest := by simpa using h
      exact ⟨‹_›, [], us, by simp⟩
    · obtain ⟨⟨t', r'⟩, hr, heq⟩ := Option.map_eq_some_iff.1 h
      obtain ⟨rfl, rfl⟩ : t' = t ∧ u :: r' = rest := by simpa using heq
      obtain ⟨ha, front, back, rfl, rfl, hf⟩ := ih hr
      exact ⟨ha, u :: front, back, by simp, by simp, by simp_all⟩

/-- No agent's offer is overlooked. -/
theorem takeOffer_none {a : Agent} {ts : List Transfer} (h : takeOffer a ts = none) :
    ∀ u ∈ ts, Port.agent u.port ≠ a := by
  induction ts with
  | nil => simp
  | cons u us ih =>
    unfold takeOffer at h
    split at h
    · cases h
    · simp_all

/-- What a fetch takes: the reset line, nothing, the first offer, nothing in a turn, or the first offer of the turn's agent. -/
theorem State.fetch_cases (s : State) :
    (s.env.rst = true ∧ s.fetch = (some (encode .reset).offer, { s with env.rst := false })) ∨
    (s.env.rst = false ∧ s.env.turns = [] ∧ s.env.offers = [] ∧ s.fetch = (none, s)) ∨
    (∃ t ts, s.env.rst = false ∧ s.env.turns = [] ∧ s.env.offers = t :: ts ∧
      s.fetch = (some t, { s with env.offers := ts })) ∨
    (∃ a as, s.env.rst = false ∧ s.env.turns = a :: as ∧ takeOffer a s.env.offers = none ∧
      s.fetch = (none, { s with env.turns := as })) ∨
    (∃ a as t ts, s.env.rst = false ∧ s.env.turns = a :: as ∧ takeOffer a s.env.offers = some (t, ts) ∧
      s.fetch = (some t, { s with env := { s.env with offers := ts, turns := as } })) := by
  unfold State.fetch
  split
  · simp_all
  · split
    · split <;> simp_all
    · split <;> simp_all

/-- Every operation answers a next state: there is no fault and no refusal (spec/60_exceptions.md R190, R201). -/
theorem exec_next (i : Instr) (s : State) : ∃ t, exec i s = .next t := by
  have en : ∀ {P : Prop} [Decidable P] {i : Instr} {s e : State}, ∃ t, whenEnabled P i s e = .next t := by
    intro P _ i s e
    unfold whenEnabled
    split <;> exact ⟨_, rfl⟩
  cases i with
  | encLoad => exact en
  | encSend => exact en
  | rxStart => exact en
  | rxSkip => exact en
  | rxCollect1 => exact en
  | rxCollect2 => exact en
  | rxCollect3 => exact en
  | rxAcceptStop => exact en
  | rxAcceptChk => exact en
  | rxReject => exact en
  | emitComplete =>
    simp only [exec, execEmitComplete]
    split
    · exact en
    · exact ⟨_, rfl⟩
  | emitExpire =>
    simp only [exec, execEmitExpire]
    split
    · exact en
    · exact ⟨_, rfl⟩
  | push => simp only [exec, execPush]; split <;> exact ⟨_, rfl⟩
  | pop => simp only [exec, execPop]; split <;> exact ⟨_, rfl⟩
  | drain => simp only [exec, execDrain]; split <;> exact ⟨_, rfl⟩
  | _ => exact ⟨_, rfl⟩

end Sys2Proof.Machine
end

