-- ==== Sys2Proof/Laws/Exec.lean ====
section
/-! SUPPORT. All that an operation can do, said once: `exec i s` answers `t` only by one of the effects listed. Invariants and frames
are case analyses of this list. -/

namespace Sys2Proof.Machine

/-- A call on the FIFO that may fail or wait. -/
abbrev IsCall (i : Instr) : Prop := (∃ c tau, i = .push c tau) ∨ (∃ tau, i = .pop tau) ∨ i = .drain

/-- An evaluation of a pure function. -/
abbrev IsPure (i : Instr) : Prop :=
  (∃ c, i = .encode c) ∨ (∃ x y, i = .chk x y) ∨ ∃ b0 b1 b2 b3 b4, i = .fdec b0 b1 b2 b3 b4

/-- The effects of an operation in state `s`, each with the condition it happens under. -/
inductive Effect (s : State) : Instr → State → Prop where
  /-- not enabled, or the caller waits -/
  | held (i : Instr) : Effect s i (s.hold i)
  /-- a `finite` call waits, one free value drawn -/
  | heldDrawn (i : Instr) (call : IsCall i) : Effect s i ((s.hold i).drawn 1)
  /-- a call fails at once -/
  | failed (i : Instr) (e : QueueError) (call : IsCall i) : Effect s i (s.fail e)
  /-- a `finite` call gives up, one free value drawn -/
  | failedDrawn (i : Instr) (e : QueueError) (call : IsCall i) : Effect s i ((s.fail e).drawn 1)
  /-- a pure function returns -/
  | answered (i : Instr) (r : Result) (pure : IsPure i) : Effect s i (s.answer r)
  | load (c : Coordinate) (idle : s.enc.tbusy = false) :
      Effect s (.encLoad c) ((s.setEnc { tbusy := true, tidx := 0, tx_x := c.x, tx_y := c.y }).encTake c)
  | send (busy : s.enc.tbusy = true) :
      Effect s .encSend ((s.txPut s.enc.nextByte).setEnc s.enc.advance)
  | skip (b : Byte) (ready : s.rxReady) (at0 : s.dec.p = 0) (hb : b ≠ START) : Effect s (.rxSkip b) (s.rxTake b)
  | start (ready : s.rxReady) (at0 : s.dec.p = 0) : Effect s .rxStart ((s.rxTake START).setP 1)
  | collect1 (b : Byte) (ready : s.rxReady) (at1 : s.dec.p = 1) :
      Effect s (.rxCollect1 b) (((s.rxTake b).setBuf1 b).setP 2)
  | collect2 (b : Byte) (ready : s.rxReady) (at2 : s.dec.p = 2) :
      Effect s (.rxCollect2 b) (((s.rxTake b).setBuf2 b).setP 3)
  | collect3 (b : Byte) (ready : s.rxReady) (at3 : s.dec.p = 3) :
      Effect s (.rxCollect3 b) (((s.rxTake b).setBuf3 b).setP 4)
  /-- an accepted attempt, by the stop byte or by the checksum -/
  | accept (i : Instr) (b : Byte) (ready : s.rxReady) (at4 : s.dec.p = 4)
      (by_ : (i = .rxAcceptStop ∧ b = STOP) ∨ (i = .rxAcceptChk b ∧ b ≠ STOP ∧ s.dec.chkOk = true)) :
      Effect s i (((s.rxTake b).doEmit s.dec.candidate).setP 0)
  | reject (b : Byte) (ready : s.rxReady) (at4 : s.dec.p = 4) (hb : b ≠ STOP) (bad : s.dec.chkOk = false) :
      Effect s (.rxReject b) ((s.rxTake b).setP 0)
  | complete (c : Coordinate) (pending : s.dec.pe = some c) (waits : s.params.tEmit ≠ .zero) (room : s.hasRoom) :
      Effect s .emitComplete ((s.append c (.emit c)).setPe none)
  | expire (c : Coordinate) (pending : s.dec.pe = some c) (waits : s.params.tEmit = .finite) (full : ¬ s.hasRoom) :
      Effect s .emitExpire ((s.logEvent (.dropFull c)).setPe none)
  | push (c : Coordinate) (tau : Timeout) (room : s.hasRoom) : Effect s (.push c tau) (s.pushNow c)
  | pop (c : Coordinate) (rest : List Coordinate) (tau : Timeout) (head : s.q = c :: rest) :
      Effect s (.pop tau) (s.popNow c)
  | reset : Effect s .reset s.resetBlock
  | feed (bs : List Byte) : Effect s (.feed bs) (s.offerFirst (feedOffers bs))
  | feedFrame (c : Coordinate) : Effect s (.feedFrame c) (s.offerFirst (feedOffers (frameOf c)))
  | sendFrame (c : Coordinate) : Effect s (.sendFrame c) (s.offerFirst (sendFrameOffers c))
  | drain (c : Coordinate) (rest : List Coordinate) (head : s.q = c :: rest) :
      Effect s .drain ((s.popNow c).hold .drain)

/-- A call that cannot proceed has one of the effects of a call that cannot proceed. -/
theorem Effect.ofRefuseOrWait {s : State} (tau : Timeout) (e : QueueError) (i : Instr) (hi : IsCall i) :
    Effect s i (s.refuseOrWait tau e i) := by
  rcases s.refuseOrWait_cases tau e i with ⟨_, h⟩ | ⟨_, h⟩ | ⟨_, h⟩ | ⟨_, h⟩ <;> rw [h]
  · exact .failed i e hi
  · exact .failedDrawn i e hi
  · exact .heldDrawn i hi
  · exact .held i

/-- What `exec` answers is one of the listed effects. -/
theorem exec_effect {i : Instr} {s t : State} (h : exec i s = .next t) : Effect s i t := by
  cases i with
  | encode c => cases h; exact .answered _ _ (.inl ⟨c, rfl⟩)
  | chk x y => cases h; exact .answered _ _ (.inr (.inl ⟨x, y, rfl⟩))
  | fdec b0 b1 b2 b3 b4 => cases h; exact .answered _ _ (.inr (.inr ⟨b0, b1, b2, b3, b4, rfl⟩))
  | encLoad c =>
    obtain ⟨hc, rfl⟩ | ⟨_, rfl⟩ := whenEnabled_cases h
    · exact .load c hc
    · exact .held _
  | encSend =>
    obtain ⟨hc, rfl⟩ | ⟨_, rfl⟩ := whenEnabled_cases h
    · exact .send hc
    · exact .held _
  | rxStart =>
    obtain ⟨⟨h1, h2⟩, rfl⟩ | ⟨_, rfl⟩ := whenEnabled_cases h
    · exact .start h1 h2
    · exact .held _
  | rxSkip b =>
    obtain ⟨⟨h1, h2, h3⟩, rfl⟩ | ⟨_, rfl⟩ := whenEnabled_cases h
    · exact .skip b h1 h2 h3
    · exact .held _
  | rxCollect1 b =>
    obtain ⟨⟨h1, h2⟩, rfl⟩ | ⟨_, rfl⟩ := whenEnabled_cases h
    · exact .collect1 b h1 h2
    · exact .held _
  | rxCollect2 b =>
    obtain ⟨⟨h1, h2⟩, rfl⟩ | ⟨_, rfl⟩ := whenEnabled_cases h
    · exact .collect2 b h1 h2
    · exact .held _
  | rxCollect3 b =>
    obtain ⟨⟨h1, h2⟩, rfl⟩ | ⟨_, rfl⟩ := whenEnabled_cases h
    · exact .collect3 b h1 h2
    · exact .held _
  | rxAcceptStop =>
    obtain ⟨⟨h1, h2⟩, rfl⟩ | ⟨_, rfl⟩ := whenEnabled_cases h
    · exact .accept _ STOP h1 h2 (.inl ⟨rfl, rfl⟩)
    · exact .held _
  | rxAcceptChk b =>
    obtain ⟨⟨h1, h2, h3, h4⟩, rfl⟩ | ⟨_, rfl⟩ := whenEnabled_cases h
    · exact .accept _ b h1 h2 (.inr ⟨rfl, h3, h4⟩)
    · exact .held _
  | rxReject b =>
    obtain ⟨⟨h1, h2, h3, h4⟩, rfl⟩ | ⟨_, rfl⟩ := whenEnabled_cases h
    · exact .reject b h1 h2 h3 h4
    · exact .held _
  | emitComplete =>
    simp only [exec, execEmitComplete] at h
    split at h
    · obtain ⟨⟨h1, h2⟩, rfl⟩ | ⟨_, rfl⟩ := whenEnabled_cases h
      · exact .complete _ ‹_› h1 h2
      · exact .held _
    · cases h; exact .held _
  | emitExpire =>
    simp only [exec, execEmitExpire] at h
    split at h
    · obtain ⟨⟨h1, h2⟩, rfl⟩ | ⟨_, rfl⟩ := whenEnabled_cases h
      · exact .expire _ ‹_› h1 h2
      · exact .held _
    · cases h; exact .held _
  | push c tau =>
    simp only [exec, execPush] at h
    split at h <;> cases h
    · exact .push c tau ‹_›
    · exact Effect.ofRefuseOrWait _ _ _ (.inl ⟨c, tau, rfl⟩)
  | pop tau =>
    simp only [exec, execPop] at h
    split at h <;> cases h
    · exact .pop _ _ tau ‹_›
    · exact Effect.ofRefuseOrWait _ _ _ (.inr (.inl ⟨tau, rfl⟩))
  | reset => cases h; exact .reset
  | feed bs => cases h; exact .feed bs
  | feedFrame c => cases h; exact .feedFrame c
  | sendFrame c => cases h; exact .sendFrame c
  | drain =>
    simp only [exec, execDrain] at h
    split at h <;> cases h
    · exact .drain _ _ ‹_›
    · exact .failed _ _ (.inr (.inr rfl))

/-- A step that answers `t` fetched nothing, or performed the operation the fetched offer decodes to. -/
theorem step_cases {s t : State} (h : step s = .next t) :
    (s.fetch.1 = none ∧ t = s.fetch.2) ∨
    ∃ u i, s.fetch.1 = some u ∧ decode (s.fetch.2.selection u) = .ok i ∧ Effect s.fetch.2 i t := by
  unfold step at h
  rcases hf : s.fetch with ⟨o, s'⟩
  rw [hf] at h
  cases o with
  | none => cases h; exact .inl ⟨rfl, rfl⟩
  | some u =>
    simp only [State.attempt] at h
    split at h
    · exact .inr ⟨u, _, rfl, ‹_›, exec_effect h⟩
    · cases h

/-- A fetch touches nothing but what stands at the interfaces. -/
theorem State.fetch_env (s : State) : ∃ e : Env, s.fetch.2 = { s with env := e } := by
  rcases s.fetch_cases with ⟨_, h⟩ | ⟨_, _, _, h⟩ | ⟨_, _, _, _, _, h⟩ | ⟨_, _, _, _, _, h⟩ | ⟨_, _, _, _, _, _, _, h⟩ <;>
    exact ⟨_, by rw [h]⟩

end Sys2Proof.Machine
end

