-- ==== Sys2Proof/Laws/Trace.lean ====
section
/-! SUPPORT. What a trace says after one more event. -/

namespace Sys2Proof.Machine

section
variable (es fs : List Event) (c : Coordinate) (b : Byte)

@[simp] theorem appendedOf_nil : appendedOf [] = [] := rfl
@[simp] theorem appendedOf_append : appendedOf (es ++ fs) = appendedOf es ++ appendedOf fs := List.filterMap_append
@[simp] theorem appendedOf_emit : appendedOf (.emit c :: es) = c :: appendedOf es := rfl
@[simp] theorem appendedOf_dropFull : appendedOf (.dropFull c :: es) = appendedOf es := rfl
@[simp] theorem appendedOf_tx : appendedOf (.tx b :: es) = appendedOf es := rfl
@[simp] theorem appendedOf_pushed : appendedOf (.pushed c :: es) = c :: appendedOf es := rfl
@[simp] theorem appendedOf_popped : appendedOf (.popped c :: es) = appendedOf es := rfl

@[simp] theorem poppedOf_nil : poppedOf [] = [] := rfl
@[simp] theorem poppedOf_append : poppedOf (es ++ fs) = poppedOf es ++ poppedOf fs := List.filterMap_append
@[simp] theorem poppedOf_emit : poppedOf (.emit c :: es) = poppedOf es := rfl
@[simp] theorem poppedOf_dropFull : poppedOf (.dropFull c :: es) = poppedOf es := rfl
@[simp] theorem poppedOf_tx : poppedOf (.tx b :: es) = poppedOf es := rfl
@[simp] theorem poppedOf_pushed : poppedOf (.pushed c :: es) = poppedOf es := rfl
@[simp] theorem poppedOf_popped : poppedOf (.popped c :: es) = c :: poppedOf es := rfl

@[simp] theorem sentOf_nil : sentOf [] = [] := rfl
@[simp] theorem sentOf_append : sentOf (es ++ fs) = sentOf es ++ sentOf fs := List.filterMap_append
@[simp] theorem sentOf_emit : sentOf (.emit c :: es) = sentOf es := rfl
@[simp] theorem sentOf_dropFull : sentOf (.dropFull c :: es) = sentOf es := rfl
@[simp] theorem sentOf_tx : sentOf (.tx b :: es) = b :: sentOf es := rfl
@[simp] theorem sentOf_pushed : sentOf (.pushed c :: es) = sentOf es := rfl
@[simp] theorem sentOf_popped : sentOf (.popped c :: es) = sentOf es := rfl

@[simp] theorem acceptedOf_nil : acceptedOf [] = [] := rfl
@[simp] theorem acceptedOf_append : acceptedOf (es ++ fs) = acceptedOf es ++ acceptedOf fs := List.filterMap_append
@[simp] theorem acceptedOf_emit : acceptedOf (.emit c :: es) = c :: acceptedOf es := rfl
@[simp] theorem acceptedOf_dropFull : acceptedOf (.dropFull c :: es) = c :: acceptedOf es := rfl
@[simp] theorem acceptedOf_tx : acceptedOf (.tx b :: es) = acceptedOf es := rfl
@[simp] theorem acceptedOf_pushed : acceptedOf (.pushed c :: es) = acceptedOf es := rfl
@[simp] theorem acceptedOf_popped : acceptedOf (.popped c :: es) = acceptedOf es := rfl

end

/-! The events since reset: unchanged by an update that adds no event, and one event longer where the run has started within the
trace. -/

section
variable (s : State)

@[simp] theorem State.runEvents_answer (r : Result) : (s.answer r).runEvents = s.runEvents := rfl
@[simp] theorem State.runEvents_fail (e : QueueError) : (s.fail e).runEvents = s.runEvents := rfl
@[simp] theorem State.runEvents_offerFirst (ts : List Transfer) : (s.offerFirst ts).runEvents = s.runEvents := rfl
@[simp] theorem State.runEvents_hold (i : Instr) : (s.hold i).runEvents = s.runEvents := rfl
@[simp] theorem State.runEvents_setP (v : Fin 5) : (s.setP v).runEvents = s.runEvents := rfl
@[simp] theorem State.runEvents_setPe (v : Option Coordinate) : (s.setPe v).runEvents = s.runEvents := rfl
@[simp] theorem State.runEvents_setBuf1 (b : Byte) : (s.setBuf1 b).runEvents = s.runEvents := rfl
@[simp] theorem State.runEvents_setBuf2 (b : Byte) : (s.setBuf2 b).runEvents = s.runEvents := rfl
@[simp] theorem State.runEvents_setBuf3 (b : Byte) : (s.setBuf3 b).runEvents = s.runEvents := rfl
@[simp] theorem State.runEvents_setEnc (e : Encoder) : (s.setEnc e).runEvents = s.runEvents := rfl
@[simp] theorem State.runEvents_qAppend (c : Coordinate) : (s.qAppend c).runEvents = s.runEvents := rfl
@[simp] theorem State.runEvents_qRemove : s.qRemove.runEvents = s.runEvents := rfl
@[simp] theorem State.runEvents_rxTake (b : Byte) : (s.rxTake b).runEvents = s.runEvents := rfl
@[simp] theorem State.runEvents_encTake (c : Coordinate) : (s.encTake c).runEvents = s.runEvents := rfl
@[simp] theorem State.runEvents_drawn (n : Nat) : (s.drawn n).runEvents = s.runEvents := rfl

end

theorem State.runEvents_of_events {s t : State} {es : List Event} (h : s.obs.runStart ≤ s.obs.events.length)
    (he : t.obs.events = s.obs.events ++ es) (hr : t.obs.runStart = s.obs.runStart) :
    t.runEvents = s.runEvents ++ es := by
  simp [State.runEvents, he, hr, List.drop_append_of_le_length h]

section
variable {s : State} (h : s.obs.runStart ≤ s.obs.events.length)
include h

theorem State.runEvents_logEvent (e : Event) : (s.logEvent e).runEvents = s.runEvents ++ [e] :=
  State.runEvents_of_events h rfl rfl

theorem State.runEvents_txPut (b : Byte) : (s.txPut b).runEvents = s.runEvents ++ [.tx b] :=
  State.runEvents_of_events h rfl rfl

theorem State.runEvents_append (c : Coordinate) (e : Event) : (s.append c e).runEvents = s.runEvents ++ [e] :=
  State.runEvents_of_events h rfl rfl

theorem State.runEvents_pushNow (c : Coordinate) : (s.pushNow c).runEvents = s.runEvents ++ [.pushed c] :=
  State.runEvents_of_events h rfl rfl

theorem State.runEvents_popNow (c : Coordinate) : (s.popNow c).runEvents = s.runEvents ++ [.popped c] :=
  State.runEvents_of_events h rfl rfl

end

@[simp] theorem State.runEvents_resetBlock (s : State) : s.resetBlock.runEvents = [] := by
  simp [State.runEvents]

/-- What `DoEmit` adds to the trace: one event, or none where the emission waits. -/
theorem State.doEmit_events (c : Coordinate) (s : State) :
    ∃ es, (s.doEmit c).obs.events = s.obs.events ++ es ∧ sentOf es = [] ∧ poppedOf es = [] ∧
      (s.doEmit c).q = s.q ++ appendedOf es ∧
      (s.dec.pe = none → acceptedOf es ++ (s.doEmit c).dec.pe.toList = [c]) := by
  rcases s.doEmit_cases c with ⟨_, h⟩ | ⟨_, _, h⟩ | ⟨_, _, h⟩
  · exact ⟨[.emit c], by simp +contextual [h]⟩
  · exact ⟨[.dropFull c], by simp +contextual [h]⟩
  · exact ⟨[], by simp [h]⟩

/-- `DoEmit` with nothing pending accepts its Coordinate, whatever room the FIFO has (spec/41_stream_decoder.md R139). -/
theorem State.doEmit_accepted {c : Coordinate} {s : State} (h : s.dec.pe = none) :
    (s.doEmit c).accepted = s.accepted ++ [c] := by
  obtain ⟨es, he, _, _, _, ha⟩ := s.doEmit_events c
  simp [State.accepted, he, h, List.append_assoc, ha h]

end Sys2Proof.Machine
end

