-- ==== Sys2Proof/Tests/Slice0.lean ====
section
/-! SUPPORT. Tests: expected values are from the worked examples and vectors of spec/95_test_vectors.md (V, P), the examples in the rules
(R), or the drawings of spec/30_encoding.md; and for each obligation with hypotheses, states and operands that meet them. -/

namespace Sys2Proof.Tests
open Sys2Proof.Machine

/-! ### A small state -/

/-- A decoder at `p` with buffer `b1`, `b2`, `b3` and nothing pending. -/
def dec (p : Fin 5) (b1 b2 b3 : Byte) : Decoder := { p := p, buf1 := b1, buf2 := b2, buf3 := b3, pe := none }

/-- An idle encoder. -/
def idle : Encoder := { tbusy := false, tidx := 0, tx_x := 0, tx_y := 0 }

/-- An encoder sending `{10,20}`, at byte `n`. -/
def sending (n : Fin 5) : Encoder := { tbusy := true, tidx := n, tx_x := 0x10, tx_y := 0x20 }

/-- A state with a decoder, a queue and a capacity; `T_EMIT = zero`, everything else as after reset. -/
def st (d : Decoder) (q : List Coordinate) (cap : Nat) : State where
  params := { cap := cap, tEmit := .zero, fdecPermissive := false }
  dec := d
  enc := idle
  q := q
  env := { offers := [], turns := [], rst := false }
  obs := { events := [], results := [], bytesIn := [], coordsIn := [], runStart := 0 }
  draw := resetDraws

/-- The state of `st` with a fresh decoder. -/
def fresh : State := st (dec 0 0 0 0) [] 100

/-- A state that waits with `c` pending on a full FIFO of one entry (V57, V58). -/
def pending (tau : Timeout) : State :=
  { st { dec 0 3 4 7 with pe := some ⟨3, 4⟩ } [⟨1, 2⟩] 1 with params := { cap := 1, tEmit := tau, fdecPermissive := false } }

/-- A value read off the next state. -/
def after {α : Type} (o : Host.Outcome State Fault Refusal) (f : State → α) : Option α :=
  match o with
  | .next t => some (f t)
  | .fault _ => none
  | .refused _ => none

def A : Coordinate := ⟨0xA0, 0xB0⟩
def B : Coordinate := ⟨0xA1, 0xB1⟩
def C : Coordinate := ⟨0xA2, 0xB2⟩

/-! ### Well-formed terms: each check refuses an ill-formed term -/

theorem test_wf_rxSkip_start : (Instr.rxSkip 0xAA).wf = false := by decide
theorem test_wf_rxSkip : (Instr.rxSkip 0x55).wf = true := by decide
theorem test_wf_rxAcceptChk_stop : (Instr.rxAcceptChk 0x55).wf = false := by decide
theorem test_wf_rxAcceptChk : (Instr.rxAcceptChk 0xAA).wf = true := by decide
theorem test_wf_rxReject_stop : (Instr.rxReject 0x55).wf = false := by decide
theorem test_wf_rxReject : (Instr.rxReject 0x00).wf = true := by decide

/-! ### Decoding: words written out from R80 and R84 -/

/-- V11: `AA 10 20 30 55`, byte 0 most significant. -/
theorem test_word_encode :
    decodeTableWord 40 0b1010101000010000001000000011000001010101 = some (.encode ⟨0x10, 0x20⟩) := by decide
/-- V34's bytes are no canonical frame. -/
theorem test_word_fdec :
    decodeTableWord 40 0b1010101000010000001000001111111101010101 = some (.fdec 0xAA 0x10 0x20 0xFF 0x55) := by decide
theorem test_word_rxStart : decodeTableWord 16 0b00010101010 = some .rxStart := by decide
theorem test_word_rxSkip : decodeTableWord 16 0b00001010101 = some (.rxSkip 0x55) := by decide
theorem test_word_rxCollect1 : decodeTableWord 16 0b00110101010 = some (.rxCollect1 0xAA) := by decide
theorem test_word_rxCollect2 : decodeTableWord 16 0b01010000001 = some (.rxCollect2 0x81) := by decide
theorem test_word_rxCollect3 : decodeTableWord 16 0b01101010101 = some (.rxCollect3 0x55) := by decide
theorem test_word_rxAcceptStop : decodeTableWord 16 0b10001010101 = some .rxAcceptStop := by decide
theorem test_word_rxAcceptChk : decodeTableWord 16 0b10010101010 = some (.rxAcceptChk 0xAA) := by decide
/-- The word of `RX.REJECT` with its buffer test. -/
theorem test_word_rxReject : caseOfWord 0b10000000000 false = some .reject := by decide
theorem test_word_reset : decodeTableWord 8 0b10 = some .reset := by decide
/-- A position field of 5 (R22). -/
theorem test_word_position5 : decodeTableWord 16 0b10100000000 = none := by decide

/-- The interfaces of R85: each port gives its operation. -/
theorem test_ports :
    decode ⟨0, false, ⟨.enc, [0x10, 0x20]⟩⟩ = .ok (.encLoad ⟨0x10, 0x20⟩) ∧
    decode ⟨0, false, ⟨.tx, []⟩⟩ = .ok .encSend ∧
    decode ⟨0, false, ⟨.chk, [0x12, 0x34]⟩⟩ = .ok (.chk 0x12 0x34) ∧
    decode ⟨4, true, ⟨.rx, [0x00]⟩⟩ = .ok (.rxAcceptChk 0x00) ∧
    decode ⟨4, false, ⟨.rx, [0x00]⟩⟩ = .ok (.rxReject 0x00) ∧
    decode ⟨0, false, ⟨.rst, []⟩⟩ = .ok .reset ∧
    decode ⟨0, false, ⟨.emitComplete, []⟩⟩ = .ok .emitComplete ∧
    decode ⟨0, false, ⟨.emitExpire, []⟩⟩ = .ok .emitExpire ∧
    decode ⟨0, false, ⟨.push, [1, 2, 0]⟩⟩ = .ok (.push ⟨1, 2⟩ .zero) ∧
    decode ⟨0, false, ⟨.pop, [2]⟩⟩ = .ok (.pop .infinite) ∧
    decode ⟨0, false, ⟨.feed, [1, 2]⟩⟩ = .ok (.feed [1, 2]) ∧
    decode ⟨0, false, ⟨.feedFrame, [1, 2]⟩⟩ = .ok (.feedFrame ⟨1, 2⟩) ∧
    decode ⟨0, false, ⟨.sendFrame, [1, 2]⟩⟩ = .ok (.sendFrame ⟨1, 2⟩) ∧
    decode ⟨0, false, ⟨.drain, []⟩⟩ = .ok .drain := by
  refine ⟨rfl, rfl, rfl, rfl, rfl, rfl, rfl, rfl, rfl, rfl, rfl, rfl, rfl, rfl⟩

theorem test_reject_length : decode ⟨0, false, ⟨.rx, [1, 2]⟩⟩ = .error (.dataLength .rx 2) := rfl
theorem test_reject_frame : decode ⟨0, false, ⟨.encode, [0xAA, 0x10, 0x20, 0xFF, 0x55]⟩⟩ = .error .notCanonical := rfl
theorem test_reject_timeout : decode ⟨0, false, ⟨.pop, [3]⟩⟩ = .error (.badTimeout 3) := rfl

/-- A word placed after reset runs as the first step: the fifth byte of an attempt whose stop byte is right. -/
theorem test_withFetchWord :
    after (step (State.reset.withFetchWord 16 0b10001010101)) (fun t => (t.dec.p, t.obs.events.length)) = some (0, 1) := by
  decide

/-! ### The codec -/

/-- V13 -/
theorem test_encode : after (exec (.encode ⟨0xAA, 0x55⟩) fresh) (·.obs.results) =
    some [.frame [0xAA, 0xAA, 0x55, 0xFF, 0x55]] := by decide
/-- V18 -/
theorem test_chk : after (exec (.chk 0x12 0x34) fresh) (·.obs.results) = some [.byte 0x26] := by decide
/-- V34, V36 -/
theorem test_fdec :
    after (exec (.fdec 0xAA 0x10 0x20 0xFF 0x55) fresh) (·.obs.results) = some [.fdec (.err .checksumMismatch) true] ∧
    after (exec (.fdec 0xAA 0x10 0x20 0x30 0x00) fresh) (·.obs.results) = some [.fdec (.ok ⟨0x10, 0x20⟩) false] := by decide
/-- V39; V34 under `FDEC_PERMISSIVE = true` -/
theorem test_fdec_order :
    after (exec (.fdec 0x00 0x10 0x20 0xFF 0x55) fresh) (·.obs.results) = some [.fdec (.err .badStart) true] ∧
    fdecOf true 0xAA 0x10 0x20 0xFF 0x55 = .ok ⟨0x10, 0x20⟩ := by decide
/-- V34, V36 at the pins -/
theorem test_fdecPins : fdecPins false 0xAA1020FF55 = ⟨2, none, none, true⟩ ∧
    fdecPins false 0xAA10203000 = ⟨0, some 0x10, some 0x20, false⟩ := by decide
/-- V53 -/
theorem test_encLoad : after (exec (.encLoad ⟨0x10, 0x20⟩) fresh) (fun t => (t.enc, t.obs.events)) =
    some (sending 0, []) := by decide
/-- V54: a load during a frame waits. -/
theorem test_encLoad_busy :
    after (exec (.encLoad ⟨0xFF, 0x00⟩) { fresh with enc := sending 2 }) (fun t => (t.enc, t.env.offers)) =
    some (sending 2, [⟨.enc, [0xFF, 0x00]⟩]) := by decide
/-- V53, no. 4 and 5 -/
theorem test_encSend :
    after (exec .encSend { fresh with enc := sending 3 }) (fun t => (t.enc, t.obs.events)) =
      some (sending 4, [.tx 0x30]) ∧
    after (exec .encSend { fresh with enc := sending 4 }) (fun t => (t.enc, t.obs.events)) =
      some ({ sending 4 with tbusy := false }, [.tx 0x55]) := by decide

/-! ### The stream decoder -/

/-- V3 -/
theorem test_rxSkip : after (exec (.rxSkip 0x01) fresh) (fun t => (t.dec.p, t.obs.bytesIn)) = some (0, [0x01]) := by decide
theorem test_rxStart : after (exec .rxStart fresh) (·.dec) = some (dec 1 0 0 0) := by decide
/-- V6: a second `AA` is data. -/
theorem test_rxCollect1 : after (exec (.rxCollect1 0xAA) { fresh with dec := dec 1 0 0 0 }) (·.dec) =
    some (dec 2 0xAA 0 0) := by decide
theorem test_rxCollect2 : after (exec (.rxCollect2 0x05) { fresh with dec := dec 2 0xAA 0 0 }) (·.dec) =
    some (dec 3 0xAA 0x05 0) := by decide
theorem test_rxCollect3 : after (exec (.rxCollect3 0x0F) { fresh with dec := dec 3 0xAA 0x05 0 }) (·.dec) =
    some (dec 4 0xAA 0x05 0x0F) := by decide
/-- V4 -/
theorem test_rxAcceptStop : after (exec .rxAcceptStop { fresh with dec := dec 4 0x10 0x20 0xFF })
    (fun t => (t.dec, t.q, t.obs.events)) = some (dec 0 0x10 0x20 0xFF, [⟨0x10, 0x20⟩], [.emit ⟨0x10, 0x20⟩]) := by decide
/-- V56: full, `T_EMIT = zero` -/
theorem test_rxAcceptStop_full : after (exec .rxAcceptStop (st (dec 4 3 4 7) [⟨1, 2⟩] 1))
    (fun t => (t.dec, t.q, t.obs.events)) = some (dec 0 3 4 7, [⟨1, 2⟩], [.dropFull ⟨3, 4⟩]) := by decide
/-- V20 -/
theorem test_rxAcceptChk : after (exec (.rxAcceptChk 0x00) { fresh with dec := dec 4 0x10 0x20 0x30 })
    (fun t => (t.dec.p, t.q)) = some (0, [⟨0x10, 0x20⟩]) := by decide
/-- V57: full, `T_EMIT = infinite` -/
theorem test_rxAccept_pending :
    after (exec .rxAcceptStop { pending .infinite with dec := dec 4 3 4 7 }) (fun t => (t.dec, t.q, t.obs.events)) =
    some ((pending .infinite).dec, [⟨1, 2⟩], []) := by decide
/-- V5 -/
theorem test_rxReject : after (exec (.rxReject 0x00) { fresh with dec := dec 4 0x10 0x20 0xFF })
    (fun t => (t.dec, t.q, t.obs.events)) = some (dec 0 0x10 0x20 0xFF, [], []) := by decide
/-- V57: after the pop -/
theorem test_emitComplete : after (exec .emitComplete { pending .infinite with q := [] })
    (fun t => (t.dec.pe, t.q, t.obs.events)) = some (none, [⟨3, 4⟩], [.emit ⟨3, 4⟩]) := by decide
theorem test_emitComplete_full : after (exec .emitComplete (pending .infinite)) (fun t => (t.dec.pe, t.q)) =
    some (some ⟨3, 4⟩, [⟨1, 2⟩]) := by decide
/-- V58 -/
theorem test_emitExpire : after (exec .emitExpire (pending .finite)) (fun t => (t.dec.pe, t.q, t.obs.events)) =
    some (none, [⟨1, 2⟩], [.dropFull ⟨3, 4⟩]) := by decide
theorem test_emitExpire_room : after (exec .emitExpire { pending .finite with q := [] }) (fun t => (t.dec.pe, t.obs.events)) =
    some (some ⟨3, 4⟩, []) := by decide

/-! ### The FIFO -/

/-- V64, V46 -/
theorem test_push :
    after (exec (.push A .zero) (st (dec 0 0 0 0) [A] 100)) (fun t => (t.q, t.obs.results)) = some ([A, A], [.pushOk]) ∧
    after (exec (.push B .zero) (st (dec 0 0 0 0) [A] 1)) (fun t => (t.q, t.obs.results)) =
      some ([A], [.err .queueFull]) := by decide
/-- V49: the push waits; in the consumer's turn the pop gives `A`. -/
theorem test_push_waits :
    after (exec (.push B .infinite) (st (dec 0 0 0 0) [A] 1)) (fun t => (t.q, t.env.offers, t.obs.results)) =
      some ([A], [⟨.push, [0xA1, 0xB1, 2]⟩], []) ∧
    after (step { st (dec 0 0 0 0) [A] 1 with
        env := { offers := [⟨.push, [0xA1, 0xB1, 2]⟩, ⟨.pop, [0]⟩], turns := [.consumer, .sampler], rst := false } })
      (fun t => (t.q, t.env.offers, t.obs.results)) = some ([], [⟨.push, [0xA1, 0xB1, 2]⟩], [.popOk A]) := by decide
/-- V48, V47 -/
theorem test_pop :
    after (exec (.pop .zero) (st (dec 0 0 0 0) [A, B, C] 100)) (fun t => (t.q, t.obs.results)) =
      some ([B, C], [.popOk A]) ∧
    after (exec (.pop .zero) fresh) (fun t => (t.q, t.obs.results)) = some ([], [.err .queueEmpty]) := by decide

/-! ### Reset and program lines -/

/-- V66 -/
theorem test_reset :
    after (exec .reset { st (dec 3 0x10 0x20 0) [⟨1, 2⟩] 100 with enc := sending 2 })
      (fun t => (t.dec.p, t.dec.pe, t.q, t.enc.tbusy, t.obs.events)) = some (0, none, [], false, []) := by decide
/-- V67: the reset line wins, the offers stand. -/
theorem test_reset_line :
    after (step { st (dec 1 0 0 0) [A] 100 with env := { offers := [⟨.rx, [0xAA]⟩, ⟨.pop, [0]⟩], turns := [], rst := true } })
      (fun t => (t.dec.p, t.q, t.env.offers, t.obs.results)) = some (0, [], [⟨.rx, [0xAA]⟩, ⟨.pop, [0]⟩], []) := by decide
theorem test_feed : after (exec (.feed [0x01, 0xAA]) fresh) (·.env.offers) = some [⟨.rx, [0x01]⟩, ⟨.rx, [0xAA]⟩] := by decide
/-- V63's frame -/
theorem test_feedFrame : after (exec (.feedFrame ⟨0x12, 0x34⟩) fresh) (·.env.offers) =
    some [⟨.rx, [0xAA]⟩, ⟨.rx, [0x12]⟩, ⟨.rx, [0x34]⟩, ⟨.rx, [0x26]⟩, ⟨.rx, [0x55]⟩] := by decide
/-- R96 -/
theorem test_sendFrame : after (exec (.sendFrame ⟨0xAA, 0x55⟩) fresh) (·.env.offers) =
    some [⟨.enc, [0xAA, 0x55]⟩, ⟨.tx, []⟩, ⟨.tx, []⟩, ⟨.tx, []⟩, ⟨.tx, []⟩, ⟨.tx, []⟩] := by decide
/-- V7: the first and the last step of a drain -/
theorem test_drain :
    after (exec .drain (st (dec 0 0 0 0) [A, B] 100)) (fun t => (t.q, t.env.offers, t.obs.results)) =
      some ([B], [⟨.drain, []⟩], [.popOk A]) ∧
    after (exec .drain fresh) (fun t => (t.q, t.env.offers, t.obs.results)) = some ([], [], [.err .queueEmpty]) := by decide

/-! ### Witnesses: for each obligation with hypotheses, states and operands that meet them, clause by clause -/

/-- `fresh` with offers. -/
def offering (ts : List Transfer) : State := { fresh with env := { offers := ts, turns := [], rst := false } }

theorem witness_DecodeAndEncodeAgree :
    (Instr.rxSkip 0xAB).wf = true ∧ decode ⟨4, true, ⟨.rx, [0x54]⟩⟩ = .ok (.rxAcceptChk 0x54) ∧
    (⟨4, true, ⟨.rx, [0x54]⟩⟩ : Selection).offer.port = .rx := ⟨rfl, rfl, rfl⟩

theorem witness_TableWordsDecode :
    (Instr.fdec 0xAA 0x10 0x20 0xFF 0x55).wf = true ∧
    tableWord (.fdec 0xAA 0x10 0x20 0xFF 0x55) = some (40, 0xAA1020FF55) ∧
    (∀ b, Instr.fdec 0xAA 0x10 0x20 0xFF 0x55 ≠ .rxReject b) ∧
    (∀ b0 b1 b2 b3 b4, Instr.fdec 0xAA 0x10 0x20 0xFF 0x55 = .fdec b0 b1 b2 b3 b4 →
      canonicalFrame b0 b1 b2 b3 b4 = false) := by
  refine ⟨rfl, by decide, nofun, ?_⟩
  rintro _ _ _ _ _ ⟨⟩
  decide

theorem witness_StepRunsTheDecodedOperation :
    ((offering [⟨.rx, [0xAA]⟩]).fetch.1 = some ⟨.rx, [0xAA]⟩ ∧
      decode ⟨(offering [⟨.rx, [0xAA]⟩]).fetch.2.dec.p, (offering [⟨.rx, [0xAA]⟩]).fetch.2.dec.chkOk, ⟨.rx, [0xAA]⟩⟩ =
        .ok .rxStart) ∧
    ((offering [⟨.rx, []⟩]).fetch.1 = some ⟨.rx, []⟩ ∧
      decode ⟨(offering [⟨.rx, []⟩]).fetch.2.dec.p, (offering [⟨.rx, []⟩]).fetch.2.dec.chkOk, ⟨.rx, []⟩⟩ =
        .error (.dataLength .rx 0)) ∧
    fresh.fetch.1 = none := by
  refine ⟨⟨rfl, rfl⟩, ⟨rfl, rfl⟩, rfl⟩

theorem witness_FetchPriority :
    ({ fresh with env := { offers := [⟨.pop, [0]⟩], turns := [.consumer], rst := true } } : State).env.rst = true ∧
    ((offering [⟨.pop, [0]⟩]).env.rst = false ∧ (offering [⟨.pop, [0]⟩]).env.turns = [] ∧
      (offering [⟨.pop, [0]⟩]).env.offers = ⟨.pop, [0]⟩ :: []) ∧
    ({ fresh with env := { offers := [⟨.rx, [1]⟩, ⟨.pop, [0]⟩], turns := [.consumer], rst := false } } : State).env.turns =
      .consumer :: [] ∧
    (fresh.env.rst = false ∧ fresh.env.turns = [] ∧ fresh.env.offers = []) := by decide

theorem witness_FetchKeepsEachAgentsOrder :
    (offering [⟨.rx, [1]⟩, ⟨.pop, [0]⟩, ⟨.rx, [2]⟩]).env.rst = false ∧
    (offering [⟨.rx, [1]⟩, ⟨.pop, [0]⟩, ⟨.rx, [2]⟩]).fetch.1 = some ⟨.rx, [1]⟩ := by decide

theorem witness_BytesKeepTheirOrder :
    (∃ t, step (offering [⟨.feed, [1, 2]⟩, ⟨.rx, [3]⟩]) = .next t) ∧
    (offering [⟨.feed, [1, 2]⟩, ⟨.rx, [3]⟩]).fetch.1 ≠ some (encode .reset).offer :=
  ⟨⟨_, rfl⟩, by decide⟩

theorem witness_StepNeverStops : (offering [⟨.rx, [0xAA]⟩, ⟨.pop, [2]⟩]).offersDecode := by
  intro t ht pos chkOk
  have h : t = ⟨.rx, [0xAA]⟩ ∨ t = ⟨.pop, [2]⟩ := by simpa [offering] using ht
  rcases h with rfl | rfl
  · exact ⟨_, rfl⟩
  · exact ⟨.pop .infinite, rfl⟩

theorem witness_EncodeReturnsTheFrame : frameOf ⟨0xAA, 0x55⟩ = frameOf ⟨0xAA, 0x55⟩ := rfl

/-- The five clauses, at V39, V36, V34 (both readings), V37. -/
theorem witness_FdecJudgesInOrder :
    ((0x00 : Byte) ≠ 0xAA) ∧ ((0xAA : Byte) = 0xAA ∧ (0x30 : Byte) = 0x10 ^^^ 0x20) ∧
    ((0xFF : Byte) ≠ 0x10 ^^^ 0x20 ∧ ({ fresh.params with fdecPermissive := true } : Params).fdecPermissive = true ∧
      (0x55 : Byte) = 0x55 ∧ (0x00 : Byte) ≠ 0x55) ∧
    fresh.params.fdecPermissive = false := by decide

theorem witness_CodecFunctionsArePure :
    (∃ x y, Instr.chk 0x12 0x34 = .chk x y) ∧ fresh.params.fdecPermissive = false := ⟨⟨_, _, rfl⟩, rfl⟩

theorem witness_CanonicalFrames :
    ((0xAA : Byte) = 0xAA ∧ (0x55 : Byte) = 0x55 ∧ (0x30 : Byte) = 0x10 ^^^ 0x20) ∧
    ∃ c : Coordinate, frameOf c = [0xAA, 0x10, 0x20, 0x30, 0x55] := ⟨by decide, ⟨0x10, 0x20⟩, by decide⟩

/-- Nothing pending at `p = 0` with room, and at each position. -/
theorem witness_aligned : fresh.dec.p = 0 ∧ fresh.dec.pe = none ∧ fresh.hasRoom ∧ fresh.params.tEmit = .zero := by decide
/-- Aligned with a full FIFO (`FdecAgainstTheStreamDecoder`), and a first byte that is no start. -/
theorem witness_FdecAgainstTheStreamDecoder :
    (st (dec 0 0 0 0) [A] 1).dec.p = 0 ∧ (st (dec 0 0 0 0) [A] 1).dec.pe = none ∧ ¬ (st (dec 0 0 0 0) [A] 1).hasRoom ∧
    ((0x55 : Byte) = 0x55 ∨ (0xFF : Byte) = 0x10 ^^^ 0x20) ∧ ¬ ((0x00 : Byte) = 0x55 ∨ (0xFF : Byte) = 0x10 ^^^ 0x20) ∧
    (0x00 : Byte) ≠ 0xAA := by decide
theorem witness_positions : ∀ p : Fin 5, ({ fresh with dec := dec p 1 2 3 } : State).dec.p = p ∧
    ({ fresh with dec := dec p 1 2 3 } : State).dec.pe = none := by decide

theorem witness_EncLoad_EncSend :
    fresh.enc.tbusy = false ∧ ({ fresh with enc := sending 4 } : State).enc.tbusy = true := by decide

theorem witness_FramesLeaveWhole : fresh.enc.tbusy = false ∧ (0 ≤ 5) ∧ (5 ≤ 5) := by decide

/-- A state that meets the invariant and each ledger, and a step from it. -/
theorem witness_ledgers :
    ((offering [⟨.enc, [1, 2]⟩]).Inv ∧ (offering [⟨.enc, [1, 2]⟩]).txLedger ∧
      ∃ t, step (offering [⟨.enc, [1, 2]⟩]) = .next t) ∧
    ((offering [⟨.rx, [0xAA]⟩]).Inv ∧ (offering [⟨.rx, [0xAA]⟩]).rxLedger ∧
      ∃ t, step (offering [⟨.rx, [0xAA]⟩]) = .next t) ∧
    ((offering [⟨.push, [1, 2, 0]⟩]).Inv ∧ (offering [⟨.push, [1, 2, 0]⟩]).fifoLedger ∧
      ∃ t, step (offering [⟨.push, [1, 2, 0]⟩]) = .next t) :=
  ⟨⟨⟨by decide, by decide, by decide, by decide, by decide, by decide⟩, rfl, ⟨_, rfl⟩⟩,
    ⟨⟨by decide, by decide, by decide, by decide, by decide, by decide⟩, ⟨rfl, rfl⟩, ⟨_, rfl⟩⟩,
    ⟨⟨by decide, by decide, by decide, by decide, by decide, by decide⟩, rfl, ⟨_, rfl⟩⟩⟩

/-- The operation is one of another unit, and answers a next state (the ownership statements). -/
theorem witness_ownership :
    (∃ t, exec (.push A .zero) fresh = .next t) ∧ Instr.push A .zero ≠ .reset ∧ (∀ c, Instr.push A .zero ≠ .encLoad c) ∧
    Instr.push A .zero ≠ .encSend ∧ (∀ pos chkOk b, Instr.push A .zero ≠ decodeRx pos chkOk b) := by
  refine ⟨⟨_, rfl⟩, nofun, nofun, nofun, ?_⟩
  intro pos chkOk b h
  unfold decodeRx at h
  repeat' split at h
  all_goals cases h

/-- Two states that differ in the encoder only, and an operation that answers differently in them. -/
theorem witness_EncoderDoesNotInfluenceTheReceiver :
    ∃ s s' t t', exec .encSend s = .next t ∧ exec .encSend s' = .next t' ∧
      s.params = s'.params ∧ s.dec = s'.dec ∧ s.q = s'.q ∧ s.draw = s'.draw ∧ s.enc ≠ s'.enc :=
  ⟨fresh, { fresh with enc := sending 1 }, _, _, rfl, rfl, rfl, rfl, rfl, rfl, by decide⟩

/-- Two states that differ in the queue only, and an operation that answers differently in them. -/
theorem witness_ReceiverDoesNotInfluenceTheEncoder :
    ∃ s s' t t', exec (.pop .zero) s = .next t ∧ exec (.pop .zero) s' = .next t' ∧
      s.enc = s'.enc ∧ s.draw = s'.draw ∧ sentOf s.obs.events = sentOf s'.obs.events ∧ s.q ≠ s'.q :=
  ⟨fresh, { fresh with q := [A] }, _, _, rfl, rfl, rfl, rfl, rfl, by decide⟩

theorem witness_PinsShowTheInterfaces :
    ({ fresh with enc := sending 1 } : State).pins.tx_valid = true ∧
    ({ fresh with q := [A] } : State).pins.pop_valid = true := by decide

theorem witness_RxSkip : fresh.dec.pe = none ∧ fresh.dec.p = 0 ∧ (0xAB : Byte) ≠ 0xAA := by decide

/-- Position 4 with the stop byte, with the checksum, with neither. -/
theorem witness_RxAccept :
    (dec 4 0x10 0x20 0xFF).p = 4 ∧ (dec 4 0x10 0x20 0xFF).pe = none ∧ (0x55 : Byte) = 0x55 ∧
    ((0x00 : Byte) ≠ 0x55 ∧ (dec 4 0x10 0x20 0x30).buf3 = (dec 4 0x10 0x20 0x30).buf1 ^^^ (dec 4 0x10 0x20 0x30).buf2) ∧
    ((0x54 : Byte) ≠ 0x55 ∧ (dec 4 0x10 0x20 0xFF).buf3 ≠ (dec 4 0x10 0x20 0xFF).buf1 ^^^ (dec 4 0x10 0x20 0xFF).buf2) := by
  decide

/-- Room, full under `zero`, full under a waiting class; one entry short of the capacity and at the capacity. -/
theorem witness_room_and_full :
    (st (dec 4 1 2 3) [A] 2).q.length < (st (dec 4 1 2 3) [A] 2).params.cap ∧
    (st (dec 4 1 2 3) [A] 1).q.length = (st (dec 4 1 2 3) [A] 1).params.cap ∧
    (st (dec 4 1 2 3) [A] 1).params.tEmit = .zero ∧
    (¬ (pending .finite).q.length < (pending .finite).params.cap ∧ (pending .finite).params.tEmit ≠ .zero) := by decide

theorem witness_emission_steps :
    ((pending .finite).dec.pe = some ⟨3, 4⟩ ∧ (pending .finite).params.tEmit = .finite ∧
      (pending .finite).q.length = (pending .finite).params.cap) ∧
    (({ pending .infinite with q := [] } : State).dec.pe = some ⟨3, 4⟩ ∧
      ({ pending .infinite with q := [] } : State).params.tEmit ≠ .zero ∧
      ({ pending .infinite with q := [] } : State).q.length < ({ pending .infinite with q := [] } : State).params.cap) ∧
    fresh.dec.pe = none := by decide

theorem witness_NoByteTakenWhilePending : (pending .infinite).dec.pe ≠ none := by decide

theorem witness_EmissionAtTheFifthByteOnly :
    (∃ t, rxb 0x55 fresh = .next t) ∧ fresh.dec.p ≠ 4 ∧
    (∃ t, rxb 0x55 { fresh with dec := dec 4 1 2 0 } = .next t) ∧ ({ fresh with dec := dec 4 1 2 0 } : State).hasRoom :=
  ⟨⟨_, rfl⟩, by decide, ⟨_, rfl⟩, by decide⟩

theorem witness_UnselectedCaseIsHeld :
    fresh.selectRx 0x10 ≠ decodeRx 1 false 0x10 ∧ (pending .infinite).dec.pe ≠ none := by decide

/-- The premise with nothing pending at every position and with an emission pending; fewer bytes than back to 0, exactly as many, and
five, from `p = 1`. -/
theorem witness_ReturnToZero :
    (∀ p : Fin 5, (dec p 1 2 3).pe ≠ none → (dec p 1 2 3).p = 0) ∧
    ((pending .finite).dec.pe ≠ none ∧ (pending .finite).dec.p = 0) ∧
    (dec 1 0 0 0).p ≠ 0 ∧ ([1, 2, 3] : List Byte).length < 5 - (1 : Fin 5).val ∧
    ([1, 2, 3, 4] : List Byte).length = 5 - (1 : Fin 5).val ∧ ([1, 2, 3, 4, 5] : List Byte).length = 5 := by decide

/-- Room for all frames, under a waiting class too. -/
theorem witness_AlignedDecoderAcceptsAStream :
    (∀ f ∈ ([([0x01, 0x55], ⟨1, 2⟩), ([], ⟨3, 4⟩)] : List (List Byte × Coordinate)), ∀ b ∈ f.1, b ≠ 0xAA) ∧
    fresh.q.length + 2 ≤ fresh.params.cap ∧
    (st (dec 0 0 0 0) [] 2).q.length + 2 ≤ { (st (dec 0 0 0 0) [] 2).params with tEmit := .finite }.cap ∧
    (st (dec 0 0 0 0) [A] 1).params.tEmit = .zero := by decide

theorem witness_AGapRealigns :
    4 ≤ ([0, 1, 2, 0x55] : List Byte).length ∧ (∀ b ∈ ([0, 1, 2, 0x55] : List Byte), b ≠ 0xAA) ∧
    ((dec 4 1 2 3).pe ≠ none → (dec 4 1 2 3).p = 0) ∧ ((pending .infinite).dec.pe ≠ none ∧ (pending .infinite).dec.p = 0) := by
  decide

/-- A step from an invariant state that sets the pending emission: the fifth byte of an attempt on a full FIFO that is waited for (V57). -/
theorem witness_StepKeepsTheInvariant :
    ∃ s t : State, s.Inv ∧ step s = .next t ∧ s.dec.pe = none ∧ t.dec.pe ≠ none :=
  ⟨{ pending .infinite with
      dec := dec 4 3 4 7
      env := { offers := [⟨.rx, [0x55]⟩], turns := [], rst := false }
      obs := { events := [], results := [], bytesIn := [0xAA, 3, 4, 7], coordsIn := [], runStart := 0 } }, _,
    ⟨by decide, by decide, by decide, by decide, by decide, by decide⟩, rfl, by decide, by decide⟩

theorem witness_Pop : (st (dec 0 0 0 0) [A, B] 100).q = A :: [B] ∧ fresh.q = [] := by decide

theorem witness_DrainDeliversEachOnce :
    ({ offering [(encode .drain).offer] with q := [A, B] } : State).env.offers = (encode .drain).offer :: [] ∧
    (offering [(encode .drain).offer]).env.rst = false ∧ (offering [(encode .drain).offer]).env.turns = [] := by decide

theorem witness_FlagsSayWhatTheFifoDoes : fresh.Inv ∧ (st (dec 0 0 0 0) [A] 1).Inv :=
  ⟨⟨by decide, by decide, by decide, by decide, by decide, by decide⟩, ⟨by decide, by decide, by decide, by decide, by decide, by decide⟩⟩

theorem witness_ResetClearsTheBlock :
    1 ≤ (st (dec 0 0 0 0) [A] 1).params.cap ∧
    ({ fresh with env := { offers := [⟨.rx, [0xAA]⟩], turns := [], rst := true } } : State).env.rst = true := by decide

theorem witness_ParametersNeverChange : ∃ t, step (offering [⟨.rst, []⟩]) = .next t := ⟨_, rfl⟩

end Sys2Proof.Tests
end

/-! ### The construction parameters -/

namespace Sys2Proof.Machine

/-- A fetch rewrites the interfaces only. -/
@[simp] theorem State.fetch_params (s : State) : s.fetch.2.params = s.params := by
  obtain ⟨e, he⟩ := s.fetch_env
  rw [he]

/-- Every effect is a chain of named updates that copy `params`; only an accepted attempt branches, inside `DoEmit`, which reads
them. -/
theorem Effect.params_eq {s t : State} {i : Instr} (h : Effect s i t) : t.params = s.params := by
  cases h with
  | accept b ready at4 by_ => simp
  | _ => rfl

/-- Settles O57, by cases on the step: a wait keeps what the fetch kept, and so does the effect of the operation fetched. -/
theorem parametersNeverChange : Obligations.ParametersNeverChange := by
  intro s t h
  obtain ⟨-, rfl⟩ | ⟨u, i, -, -, heff⟩ := step_cases h
  · exact s.fetch_params
  · exact heff.params_eq.trans s.fetch_params

end Sys2Proof.Machine

/-! ### The cases of `RXB` -/

namespace Sys2Proof

/-- R84's table read as a case split: what holds of every row's operation, under the row's condition, holds of the one selected. -/
theorem decodeRx_rec {motive : Instr → Prop} {pos : Fin 5} {chkOk : Bool} {b : Byte}
    (start : pos = 0 → b = START → motive .rxStart)
    (skip : pos = 0 → b ≠ START → motive (.rxSkip b))
    (collect1 : pos = 1 → motive (.rxCollect1 b))
    (collect2 : pos = 2 → motive (.rxCollect2 b))
    (collect3 : pos = 3 → motive (.rxCollect3 b))
    (acceptStop : pos = 4 → b = STOP → motive .rxAcceptStop)
    (acceptChk : pos = 4 → b ≠ STOP → chkOk = true → motive (.rxAcceptChk b))
    (reject : pos = 4 → b ≠ STOP → chkOk = false → motive (.rxReject b)) :
    motive (decodeRx pos chkOk b) := by
  unfold decodeRx
  split
  · split
    · exact start rfl ‹_›
    · exact skip rfl ‹_›
  · exact collect1 rfl
  · exact collect2 rfl
  · exact collect3 rfl
  · split
    · exact acceptStop rfl ‹_›
    · split
      · exact acceptChk rfl ‹_› ‹_›
      · exact reject rfl ‹_› (Bool.eq_false_of_not_eq_true ‹_›)

/-- Whatever case a byte selects, that case is offered as the byte at RX. -/
@[simp] theorem encode_decodeRx_offer (pos : Fin 5) (chkOk : Bool) (b : Byte) :
    (encode (decodeRx pos chkOk b)).offer = ⟨.rx, [b]⟩ := by
  refine decodeRx_rec (motive := fun i => (encode i).offer = ⟨.rx, [b]⟩) ?start ?skip ?collect1 ?collect2 ?collect3
    ?acceptStop ?acceptChk ?reject
  case start => rintro - rfl; rfl
  case acceptStop => rintro - rfl; rfl
  all_goals intros; rfl

theorem decodeRx_skip {b : Byte} (hb : b ≠ START) (chkOk : Bool) : decodeRx 0 chkOk b = .rxSkip b := if_neg hb

theorem decodeRx_acceptChk {b : Byte} (hb : b ≠ STOP) : decodeRx 4 true b = .rxAcceptChk b := if_neg hb

theorem decodeRx_reject {b : Byte} (hb : b ≠ STOP) : decodeRx 4 false b = .rxReject b := if_neg hb

end Sys2Proof

namespace Sys2Proof.Machine

/-- R36: with an emission pending RX is not enabled, whatever case is asked for. -/
theorem exec_decodeRx_of_pending {s : State} (h : s.dec.pe ≠ none) (pos : Fin 5) (chkOk : Bool) (b : Byte) :
    exec (decodeRx pos chkOk b) s = .next (s.hold (decodeRx pos chkOk b)) := by
  refine decodeRx_rec (motive := fun i => exec i s = .next (s.hold i)) ?_ ?_ ?_ ?_ ?_ ?_ ?_ ?_ <;> intros <;>
    exact whenEnabled_neg fun enabled => h enabled.1

/-- R30, R130: with nothing pending the selected case takes the byte. -/
theorem rxb_takes {s : State} (h : s.dec.pe = none) (b : Byte) :
    ∃ t, rxb b s = .next t ∧ t.obs.bytesIn = s.obs.bytesIn ++ [b] := by
  refine decodeRx_rec (motive := fun i => ∃ t, exec i s = .next t ∧ t.obs.bytesIn = s.obs.bytesIn ++ [b])
    ?start ?skip ?collect1 ?collect2 ?collect3 ?acceptStop ?acceptChk ?reject
  case start => rintro hp rfl; exact ⟨_, whenEnabled_pos ⟨h, hp⟩, rfl⟩
  case skip => intro hp hb; exact ⟨_, whenEnabled_pos ⟨h, hp, hb⟩, rfl⟩
  case collect1 => intro hp; exact ⟨_, whenEnabled_pos ⟨h, hp⟩, rfl⟩
  case collect2 => intro hp; exact ⟨_, whenEnabled_pos ⟨h, hp⟩, rfl⟩
  case collect3 => intro hp; exact ⟨_, whenEnabled_pos ⟨h, hp⟩, rfl⟩
  case acceptStop => rintro hp rfl; exact ⟨_, whenEnabled_pos ⟨h, hp⟩, by simp⟩
  case acceptChk => intro hp hb hk; exact ⟨_, whenEnabled_pos ⟨h, hp, hb, hk⟩, by simp⟩
  case reject => intro hp hb hk; exact ⟨_, whenEnabled_pos ⟨h, hp, hb, hk⟩, rfl⟩

/-- Settles O32: the selected case is held, and what is put back is the byte at RX. -/
theorem noByteTakenWhilePending : Obligations.NoByteTakenWhilePending := by
  intro b s h
  rw [rxb, State.selectRx, exec_decodeRx_of_pending h, State.hold, encode_decodeRx_offer]
  rfl

end Sys2Proof.Machine

/-! ### What an effect leaves of the encoder, the decoder, the queue and the trace -/

namespace Sys2Proof.Machine

section
variable {i : Instr} {s t : State}

/-- R27: the encoder's part of an effect that is not the encoder's or the reset's. -/
theorem Effect.encoder_frame (h : Effect s i t) (hreset : i ≠ .reset) (hload : ∀ c, i ≠ .encLoad c) (hsend : i ≠ .encSend) :
    t.enc = s.enc ∧ t.obs.coordsIn = s.obs.coordsIn ∧ sentOf t.obs.events = sentOf s.obs.events := by
  cases h with
  | load c => exact absurd rfl (hload c)
  | send => exact absurd rfl hsend
  | reset => exact absurd rfl hreset
  | accept _ b =>
    obtain ⟨es, hes, hsent, -⟩ := (s.rxTake b).doEmit_events s.dec.candidate
    simp [hes, hsent]
  | complete | expire | push | pop | drain => simp
  | _ => exact ⟨rfl, rfl, rfl⟩

/-- R40: the decoder's part of an effect that is not the decoder's or the reset's: an emission step only clears `pe`. -/
theorem Effect.decoder_frame (h : Effect s i t) (hreset : i ≠ .reset) (hrx : ∀ pos chkOk b, i ≠ decodeRx pos chkOk b) :
    t.obs.bytesIn = s.obs.bytesIn ∧ t.dec = { s.dec with pe := t.dec.pe } ∧
      (i ≠ .emitComplete → i ≠ .emitExpire → t.dec = s.dec) := by
  cases h with
  | reset => exact absurd rfl hreset
  | start => exact absurd rfl (hrx 0 false START)
  | skip b _ _ hb => exact absurd (decodeRx_skip hb false).symm (hrx _ _ _)
  | collect1 b => exact absurd rfl (hrx 1 false b)
  | collect2 b => exact absurd rfl (hrx 2 false b)
  | collect3 b => exact absurd rfl (hrx 3 false b)
  | accept _ b _ _ by_ =>
    obtain ⟨rfl, rfl⟩ | ⟨rfl, hb, -⟩ := by_
    · exact absurd rfl (hrx 4 false STOP)
    · exact absurd (decodeRx_acceptChk hb).symm (hrx _ _ _)
  | reject b _ _ hb => exact absurd (decodeRx_reject hb).symm (hrx _ _ _)
  | complete => exact ⟨rfl, rfl, fun hne _ => absurd rfl hne⟩
  | expire => exact ⟨rfl, rfl, fun _ hne => absurd rfl hne⟩
  | _ => exact ⟨rfl, rfl, fun _ _ => rfl⟩

/-- R28: all that an effect does to the queue, with the event that says so. -/
theorem Effect.queue_cases (h : Effect s i t) :
    (i = .reset ∧ t = s.resetBlock) ∨
    (t.q = s.q ∧ appendedOf t.obs.events = appendedOf s.obs.events ∧ poppedOf t.obs.events = poppedOf s.obs.events) ∨
    (∃ c, t.q = s.q ++ [c] ∧ s.hasRoom ∧
      (t.obs.events = s.obs.events ++ [.emit c] ∨ t.obs.events = s.obs.events ++ [.pushed c])) ∨
    (∃ c, s.q = c :: t.q ∧ t.obs.events = s.obs.events ++ [.popped c]) := by
  cases h with
  | reset => exact .inl ⟨rfl, rfl⟩
  | accept _ b =>
    obtain ⟨room, he⟩ | ⟨-, -, he⟩ | ⟨-, -, he⟩ := (s.rxTake b).doEmit_cases s.dec.candidate
    · exact .inr (.inr (.inl ⟨s.dec.candidate, by simp [he], room, .inl (by simp [he])⟩))
    · exact .inr (.inl (by simp [he]))
    · exact .inr (.inl (by simp [he]))
  | complete c _ _ room => exact .inr (.inr (.inl ⟨c, rfl, room, .inl rfl⟩))
  | push c _ room => exact .inr (.inr (.inl ⟨c, rfl, room, .inr rfl⟩))
  | pop c _ _ head => exact .inr (.inr (.inr ⟨c, by simp [head], rfl⟩))
  | drain c _ head => exact .inr (.inr (.inr ⟨c, by simp [head], rfl⟩))
  | send | expire => exact .inr (.inl (by simp))
  | _ => exact .inr (.inl ⟨rfl, rfl, rfl⟩)

/-- R12: an effect adds to the end of the trace; only `RESET` begins a new run. -/
theorem Effect.trace_cases (h : Effect s i t) :
    (i = .reset ∧ t = s.resetBlock) ∨
    ∃ es, t.obs.events = s.obs.events ++ es ∧ t.obs.runStart = s.obs.runStart := by
  cases h with
  | reset => exact .inl ⟨rfl, rfl⟩
  | accept _ b =>
    obtain ⟨es, hes, -⟩ := (s.rxTake b).doEmit_events s.dec.candidate
    exact .inr ⟨es, by simp [hes]⟩
  | send | complete | expire | push | pop | drain => exact .inr ⟨[_], rfl, rfl⟩
  | _ => exact .inr ⟨[], by simp⟩

/-- R30: all that an effect does to the pending emission: it is gone or absent, it stays with the position, or an accepted attempt sets
it, with nothing pending before and no room. -/
theorem Effect.pe_cases (h : Effect s i t) :
    t.dec.pe = none ∨ (t.dec.pe = s.dec.pe ∧ t.dec.p = s.dec.p) ∨
    (s.rxReady ∧ ¬ s.hasRoom ∧ s.params.tEmit ≠ .zero ∧ t.q = s.q ∧ t.dec.p = 0) := by
  cases h with
  | skip _ ready | start ready | collect1 _ ready | collect2 _ ready | collect3 _ ready | reject _ ready =>
    exact .inl ready
  | accept _ b ready =>
    obtain ⟨-, he⟩ | ⟨-, -, he⟩ | ⟨full, waits, he⟩ := (s.rxTake b).doEmit_cases s.dec.candidate
    · exact .inl (by simpa [he] using ready)
    · exact .inl (by simpa [he] using ready)
    · exact .inr (.inr ⟨ready, full, waits, by simp [he]⟩)
  | complete | expire | reset => exact .inl rfl
  | _ => exact .inr (.inl ⟨rfl, rfl⟩)

/-- R25: after an effect the decoder is between attempts, or it holds its attempt longer by the bytes just taken. -/
theorem Effect.attempt_cases (h : Effect s i t) :
    t.dec.attempt = [] ∨ ∃ bs, t.dec.attempt = s.dec.attempt ++ bs ∧ t.obs.bytesIn = s.obs.bytesIn ++ bs := by
  cases h with
  | reset | accept | reject => exact .inl rfl
  | skip _ _ at0 => exact .inl (by simp [Decoder.attempt, at0])
  | start _ at0 => exact .inr ⟨[START], by simp [Decoder.attempt, at0]⟩
  | collect1 b _ at1 => exact .inr ⟨[b], by simp [Decoder.attempt, at1]⟩
  | collect2 b _ at2 => exact .inr ⟨[b], by simp [Decoder.attempt, at2]⟩
  | collect3 b _ at3 => exact .inr ⟨[b], by simp [Decoder.attempt, at3]⟩
  | _ => exact .inr ⟨[], (List.append_nil _).symm, (List.append_nil _).symm⟩

end

/-- Settles O23: the frame of every effect but the encoder's two and the reset's. -/
theorem encoderStateIsOwned : Obligations.EncoderStateIsOwned :=
  fun _ _ _ h hreset hload hsend => (exec_effect h).encoder_frame hreset hload hsend

/-- Settles O41: the frame of every effect but those of `RXB` and the reset's. -/
theorem decoderStateIsOwned : Obligations.DecoderStateIsOwned := by
  intro i s t h hreset hrx
  obtain ⟨hbytes, hdec, hrest⟩ := (exec_effect h).decoder_frame hreset hrx
  refine ⟨hbytes, ?_, ?_, ?_, ?_, hrest⟩ <;> rw [hdec]

/-- Settles O51: what effects do to the queue, the reset's put aside. -/
theorem queueChangesOnlyAtItsEnds : Obligations.QueueChangesOnlyAtItsEnds :=
  fun _ _ _ h hreset => (exec_effect h).queue_cases.resolve_left fun hr => hreset hr.1

end Sys2Proof.Machine

/-! ### The invariant of R39 -/

namespace Sys2Proof.Machine

section
variable {i : Instr} {s t : State}

/-- The queue stays within the capacity: an entry is appended only with room. -/
theorem Effect.qBound (h : Effect s i t) (hq : s.q.length ≤ s.params.cap) : t.q.length ≤ t.params.cap := by
  rw [h.params_eq]
  obtain ⟨-, rfl⟩ | ⟨hq', -⟩ | ⟨c, hq', room, -⟩ | ⟨c, hq', -⟩ := h.queue_cases
  · simp
  · rwa [hq']
  · simpa [hq'] using room
  · simp only [hq', List.length_cons] at hq
    omega

/-- A pending emission exists only where `T_EMIT` waits: it is set only there. -/
theorem Effect.noneWhenZero (h : Effect s i t) (hpe : s.params.tEmit = .zero → s.dec.pe = none)
    (hz : t.params.tEmit = .zero) : t.dec.pe = none := by
  rw [h.params_eq] at hz
  obtain hnone | ⟨hsame, -⟩ | ⟨-, -, hwaits, -⟩ := h.pe_cases
  · exact hnone
  · rw [hsame, hpe hz]
  · exact absurd hz hwaits

/-- A pending emission is held at `p = 0`: it is set there, and while it stands no byte moves `p`. -/
theorem Effect.pendingAtZero (h : Effect s i t) (hp : s.dec.pe ≠ none → s.dec.p = 0) (hpe : t.dec.pe ≠ none) :
    t.dec.p = 0 := by
  obtain hnone | ⟨hsame, hp'⟩ | ⟨-, -, -, -, hp'⟩ := h.pe_cases
  · exact absurd hnone hpe
  · rw [hp', hp (hsame ▸ hpe)]
  · exact hp'

/-- The bytes an attempt holds stay the last bytes taken: both grow by the same bytes. -/
theorem Effect.writtenBeforeRead (h : Effect s i t) (hw : s.dec.attempt <:+ s.obs.bytesIn) :
    t.dec.attempt <:+ t.obs.bytesIn := by
  obtain hnil | ⟨bs, ha, hb⟩ := h.attempt_cases
  · rw [hnil]
    exact List.nil_suffix
  · obtain ⟨front, hfront⟩ := hw
    exact ⟨front, by rw [ha, hb, ← hfront, List.append_assoc]⟩

/-- The current run begins within the trace: the trace only grows, and a new run begins at its end. -/
theorem Effect.runStarted (h : Effect s i t) (hr : s.obs.runStart ≤ s.obs.events.length) :
    t.obs.runStart ≤ t.obs.events.length := by
  obtain ⟨-, rfl⟩ | ⟨es, hes, hrun⟩ := h.trace_cases
  · simp
  · rw [hes, hrun, List.length_append]
    omega

theorem Effect.keeps_inv (h : Effect s i t) (hs : s.Inv) : t.Inv where
  capPos := h.params_eq ▸ hs.capPos
  qBound := h.qBound hs.qBound
  noneWhenZero := h.noneWhenZero hs.noneWhenZero
  pendingAtZero := h.pendingAtZero hs.pendingAtZero
  writtenBeforeRead := h.writtenBeforeRead hs.writtenBeforeRead
  runStarted := h.runStarted hs.runStarted

/-- An effect that sets the pending emission finds the queue at its capacity and leaves it so. -/
theorem Effect.full_of_sets_pe (h : Effect s i t) (hq : s.q.length ≤ s.params.cap) (hs : s.dec.pe = none)
    (ht : t.dec.pe ≠ none) : s.q.length = s.params.cap ∧ t.q.length = t.params.cap := by
  obtain hnone | ⟨hsame, -⟩ | ⟨-, full, -, hq', -⟩ := h.pe_cases
  · exact absurd hnone ht
  · exact absurd (hsame.trans hs) ht
  · have hcap : s.q.length = s.params.cap := by omega
    exact ⟨hcap, by rw [hq', h.params_eq, hcap]⟩

end

/-- The invariant does not speak of the interfaces. -/
theorem State.Inv.withEnv {s : State} (h : s.Inv) (e : Env) : { s with env := e }.Inv :=
  ⟨h.capPos, h.qBound, h.noneWhenZero, h.pendingAtZero, h.writtenBeforeRead, h.runStarted⟩

/-- Settles O59: the fetch changes the interfaces only, and the effect of the operation fetched keeps each clause. -/
theorem stepKeepsTheInvariant : Obligations.StepKeepsTheInvariant := by
  intro s t hs hstep
  obtain ⟨e, hfetch⟩ := s.fetch_env
  have hs' := hs.withEnv e
  obtain ⟨-, rfl⟩ | ⟨u, i, -, -, heff⟩ := step_cases hstep
  · rw [hfetch]
    exact ⟨hs', fun hnone hsome => absurd hnone hsome⟩
  · rw [hfetch] at heff
    exact ⟨heff.keeps_inv hs', heff.full_of_sets_pe hs'.qBound⟩

/-- Settles O60: between attempts, with nothing queued, sent, taken or observed, every clause is about empty lists. -/
theorem resetMeetsTheInvariants : Obligations.ResetMeetsTheInvariants := by
  have inv : State.reset.Inv :=
    { capPos := by decide, qBound := Nat.zero_le _, noneWhenZero := fun _ => rfl, pendingAtZero := fun _ => rfl,
      writtenBeforeRead := List.nil_suffix, runStarted := Nat.le_refl _ }
  exact ⟨inv, rfl, rfl, rfl, rfl⟩

/-- Settles O56: the free values drawn are the unspecified cells. -/
theorem resetGivesTheResetState : Obligations.ResetGivesTheResetState :=
  fun _ => ⟨_, _, _, _, _, _, _, rfl⟩

end Sys2Proof.Machine

/-! ### The operations on the FIFO and the emission steps, by the state of the queue and of `pe` -/

namespace Sys2Proof.Machine

section
variable {s : State} {c : Coordinate} {rest : List Coordinate} {tau : Timeout}

/-- R162, R166: a call that does not wait fails at once. -/
@[simp] theorem State.refuseOrWait_zero (e : QueueError) (i : Instr) (s : State) : s.refuseOrWait .zero e i = s.fail e := rfl

theorem exec_push_of_room (room : s.hasRoom) : exec (.push c tau) s = .next (s.pushNow c) :=
  if_pos room

theorem exec_push_of_full (full : ¬ s.hasRoom) :
    exec (.push c tau) s = .next (s.refuseOrWait tau .queueFull (.push c tau)) := if_neg full

theorem exec_pop_cons (head : s.q = c :: rest) : exec (.pop tau) s = .next (s.popNow c) := by
  simp only [exec, execPop, head]

theorem exec_pop_nil (empty : s.q = []) :
    exec (.pop tau) s = .next (s.refuseOrWait tau .queueEmpty (.pop tau)) := by
  simp only [exec, execPop, empty]

theorem exec_drain_cons (head : s.q = c :: rest) : exec .drain s = .next ((s.popNow c).hold .drain) := by
  simp only [exec, execDrain, head]

theorem exec_drain_nil (empty : s.q = []) : exec .drain s = .next (s.fail .queueEmpty) := by
  simp only [exec, execDrain, empty]

theorem exec_emitComplete_some (pending : s.dec.pe = some c) :
    exec .emitComplete s = whenEnabled (s.params.tEmit ≠ .zero ∧ s.hasRoom) .emitComplete s
      ((s.append c (.emit c)).setPe none) := by
  simp only [exec, execEmitComplete, pending]

theorem exec_emitComplete_none (idle : s.dec.pe = none) : exec .emitComplete s = .next (s.hold .emitComplete) := by
  simp only [exec, execEmitComplete, idle]

theorem exec_emitExpire_some (pending : s.dec.pe = some c) :
    exec .emitExpire s = whenEnabled (s.params.tEmit = .finite ∧ ¬ s.hasRoom) .emitExpire s
      ((s.logEvent (.dropFull c)).setPe none) := by
  simp only [exec, execEmitExpire, pending]

theorem exec_emitExpire_none (idle : s.dec.pe = none) : exec .emitExpire s = .next (s.hold .emitExpire) := by
  simp only [exec, execEmitExpire, idle]

end

end Sys2Proof.Machine

/-! ### Noninterference of the encoder and the receiver -/

namespace Sys2Proof.Machine

/-- Two states with the same decoder, FIFO, parameters and free values to come: they differ in the encoder, the offers and the
observation only. -/
structure SameReceiver (s s' : State) : Prop where
  params : s.params = s'.params
  dec : s.dec = s'.dec
  q : s.q = s'.q
  draw : s.draw = s'.draw

section
variable {i : Instr} {s s' t t' u u' : State} (h : exec i s = .next t) (h' : exec i s' = .next t')
include h h'

theorem SameReceiver.of_exec (e : exec i s = .next u) (e' : exec i s' = .next u') (same : SameReceiver u u') :
    SameReceiver t t' := by
  cases e.symm.trans h
  cases e'.symm.trans h'
  exact same

/-- Two operations enabled under one condition take effect together or are held together. -/
theorem SameReceiver.of_whenEnabled {P : Prop} [Decidable P] (held : SameReceiver s s') (e : exec i s = whenEnabled P i s u)
    (e' : exec i s' = whenEnabled P i s' u') (effect : SameReceiver u u') : SameReceiver t t' := by
  by_cases enabled : P
  · exact .of_exec h h' (e.trans (whenEnabled_pos enabled)) (e'.trans (whenEnabled_pos enabled)) effect
  · exact .of_exec h h' (e.trans (whenEnabled_neg enabled)) (e'.trans (whenEnabled_neg enabled))
      ⟨held.params, held.dec, held.q, held.draw⟩

end

namespace SameReceiver

variable {s s' : State} (h : SameReceiver s s')
include h

theorem exists_eq : ∃ e v o, s' = { s with enc := e, env := v, obs := o } := by
  obtain ⟨hparams, hdec, hq, hdraw⟩ := h
  exact ⟨s'.enc, s'.env, s'.obs, by rw [hparams, hdec, hq, hdraw]⟩

theorem doEmit (c : Coordinate) : SameReceiver (s.doEmit c) (s'.doEmit c) := by
  obtain ⟨e, v, o, rfl⟩ := h.exists_eq
  unfold State.doEmit
  split
  · exact ⟨rfl, rfl, rfl, rfl⟩
  · cases s.params.tEmit <;> exact ⟨rfl, rfl, rfl, rfl⟩

theorem accept (b : Byte) :
    SameReceiver (((s.rxTake b).doEmit s.dec.candidate).setP 0) (((s'.rxTake b).doEmit s'.dec.candidate).setP 0) := by
  have taken : SameReceiver (s.rxTake b) (s'.rxTake b) := ⟨h.params, h.dec, h.q, h.draw⟩
  obtain ⟨hparams, hdec, hq, hdraw⟩ := taken.doEmit s.dec.candidate
  rw [← h.dec]
  exact ⟨hparams, by simp [hdec], hq, hdraw⟩

theorem refuseOrWait (tau : Timeout) (e : QueueError) (i : Instr) :
    SameReceiver (s.refuseOrWait tau e i) (s'.refuseOrWait tau e i) := by
  obtain ⟨_, _, _, rfl⟩ := h.exists_eq
  cases tau with
  | zero | infinite => exact ⟨rfl, rfl, rfl, rfl⟩
  | finite =>
    unfold State.refuseOrWait
    cases Config.finiteExpires s.draw <;> exact ⟨rfl, rfl, rfl, rfl⟩

end SameReceiver

/-- What an operation reads of the encoder, the offers and the observation does not reach the decoder or the FIFO. -/
theorem exec_sameReceiver {i : Instr} {s s' t t' : State} (hs : SameReceiver s s') (h : exec i s = .next t)
    (h' : exec i s' = .next t') : SameReceiver t t' := by
  have accept := hs.accept
  have refused := hs.refuseOrWait
  obtain ⟨e, v, o, rfl⟩ := hs.exists_eq
  cases i with
  | encLoad | encSend =>
    obtain ⟨-, rfl⟩ | ⟨-, rfl⟩ := whenEnabled_cases h <;> obtain ⟨-, rfl⟩ | ⟨-, rfl⟩ := whenEnabled_cases h' <;>
      exact ⟨rfl, rfl, rfl, rfl⟩
  | rxStart | rxSkip | rxCollect1 | rxCollect2 | rxCollect3 | rxReject =>
    exact .of_whenEnabled h h' hs rfl rfl ⟨rfl, rfl, rfl, rfl⟩
  | rxAcceptStop | rxAcceptChk => exact .of_whenEnabled h h' hs rfl rfl (accept _)
  | emitComplete =>
    cases hpe : s.dec.pe with
    | none => exact .of_exec h h' (exec_emitComplete_none hpe) (exec_emitComplete_none hpe) ⟨rfl, rfl, rfl, rfl⟩
    | some c =>
      exact .of_whenEnabled h h' hs (exec_emitComplete_some hpe) (exec_emitComplete_some hpe) ⟨rfl, rfl, rfl, rfl⟩
  | emitExpire =>
    cases hpe : s.dec.pe with
    | none => exact .of_exec h h' (exec_emitExpire_none hpe) (exec_emitExpire_none hpe) ⟨rfl, rfl, rfl, rfl⟩
    | some c => exact .of_whenEnabled h h' hs (exec_emitExpire_some hpe) (exec_emitExpire_some hpe) ⟨rfl, rfl, rfl, rfl⟩
  | push c tau =>
    by_cases room : s.hasRoom
    · exact .of_exec h h' (exec_push_of_room room) (exec_push_of_room room) ⟨rfl, rfl, rfl, rfl⟩
    · exact .of_exec h h' (exec_push_of_full room) (exec_push_of_full room) (refused _ _ _)
  | pop tau =>
    cases hq : s.q with
    | nil => exact .of_exec h h' (exec_pop_nil hq) (exec_pop_nil hq) (refused _ _ _)
    | cons c rest => exact .of_exec h h' (exec_pop_cons hq) (exec_pop_cons hq) ⟨rfl, rfl, rfl, rfl⟩
  | drain =>
    cases hq : s.q with
    | nil => exact .of_exec h h' (exec_drain_nil hq) (exec_drain_nil hq) ⟨rfl, rfl, rfl, rfl⟩
    | cons c rest => exact .of_exec h h' (exec_drain_cons hq) (exec_drain_cons hq) ⟨rfl, rfl, rfl, rfl⟩
  | _ => cases h; cases h'; exact ⟨rfl, rfl, rfl, rfl⟩

/-- Settles O42: every operation keeps `SameReceiver`. -/
theorem encoderDoesNotInfluenceTheReceiver : Obligations.EncoderDoesNotInfluenceTheReceiver := by
  intro i s s' t t' h h' hparams hdec hq hdraw
  obtain ⟨hparams', hdec', hq', hdraw'⟩ := exec_sameReceiver ⟨hparams, hdec, hq, hdraw⟩ h h'
  exact ⟨hparams', hdec', hq', hdraw'⟩

/-- Settles O43: `RESET` writes free values of one draw, the encoder's own two operations read the encoder only, and every other
operation leaves it as it is. -/
theorem receiverDoesNotInfluenceTheEncoder : Obligations.ReceiverDoesNotInfluenceTheEncoder := by
  intro i s s' t t' h h' henc hdraw hsent
  cases i with
  | reset => cases h; cases h'; exact ⟨by simp [hdraw], hsent⟩
  | encLoad c =>
    obtain ⟨idle, rfl⟩ | ⟨busy, rfl⟩ := whenEnabled_cases h <;> obtain ⟨idle', rfl⟩ | ⟨busy', rfl⟩ := whenEnabled_cases h'
    · exact ⟨rfl, hsent⟩
    · exact absurd (henc ▸ idle) busy'
    · exact absurd (henc ▸ idle') busy
    · exact ⟨henc, hsent⟩
  | encSend =>
    obtain ⟨busy, rfl⟩ | ⟨idle, rfl⟩ := whenEnabled_cases h <;> obtain ⟨busy', rfl⟩ | ⟨idle', rfl⟩ := whenEnabled_cases h'
    · exact ⟨by simp [henc], by simp [henc, hsent]⟩
    · exact absurd (henc ▸ busy) idle'
    · exact absurd (henc ▸ busy') idle
    · exact ⟨henc, hsent⟩
  | _ =>
    obtain ⟨hkeep, -, hsent₁⟩ := (exec_effect h).encoder_frame nofun nofun nofun
    obtain ⟨hkeep', -, hsent₂⟩ := (exec_effect h').encoder_frame nofun nofun nofun
    exact ⟨by rw [hkeep, henc, hkeep'], by rw [hsent₁, hsent, hsent₂]⟩

end Sys2Proof.Machine

/-! ### Flags and pins -/

namespace Sys2Proof.Machine

theorem State.fifoEmpty_iff (s : State) : s.fifoEmpty = true ↔ s.q = [] := by
  simp [State.fifoEmpty]

theorem State.fifoFull_iff (s : State) : s.fifoFull = true ↔ s.q.length = s.params.cap := beq_iff_eq

theorem State.peValid_iff (s : State) : s.peValid = true ↔ s.dec.pe ≠ none := Option.isSome_iff_ne_none

theorem State.pins_rx_ready_iff (s : State) : s.pins.rx_ready = true ↔ s.dec.pe = none := by
  simp [State.pins, State.peValid]

theorem State.pins_enc_ready_iff (s : State) : s.pins.enc_ready = true ↔ s.enc.tbusy = false := by
  simp [State.pins]

theorem State.pins_pop_valid_iff (s : State) : s.pins.pop_valid = true ↔ s.q ≠ [] := by
  simp [State.pins, State.fifoEmpty]

/-- The count fits the width R32 gives it. -/
theorem State.fifoCount_lt (s : State) (hq : s.q.length ≤ s.params.cap) : s.fifoCount < 2 ^ s.fifoCountWidth :=
  calc s.q.length < s.params.cap + 1 := Nat.lt_succ_of_le hq
    _ ≤ 2 ^ Nat.clog 2 (s.params.cap + 1) := Nat.le_pow_clog Nat.one_lt_two _

/-- A `POP` that does not wait answers `QueueEmpty` on the empty queue only. -/
theorem exec_pop_zero_fails_iff (s : State) :
    ∃ t, exec (.pop .zero) s = .next t ∧ (t.obs.results = s.obs.results ++ [.err .queueEmpty] ↔ s.fifoEmpty = true) := by
  cases hq : s.q with
  | nil => exact ⟨_, exec_pop_nil hq, by simp [s.fifoEmpty_iff, hq]⟩
  | cons c rest => exact ⟨_, exec_pop_cons hq, by simp [s.fifoEmpty_iff, hq]⟩

/-- Within the capacity, a `PUSH` that does not wait answers `QueueFull` at the capacity only. -/
theorem exec_push_zero_fails_iff (s : State) (hq : s.q.length ≤ s.params.cap) (c : Coordinate) :
    ∃ t, exec (.push c .zero) s = .next t ∧ (t.obs.results = s.obs.results ++ [.err .queueFull] ↔ s.fifoFull = true) := by
  rw [s.fifoFull_iff]
  by_cases room : s.hasRoom
  · exact ⟨_, exec_push_of_room room, by simp [Nat.ne_of_lt room]⟩
  · exact ⟨_, exec_push_of_full room, by simp [Nat.le_antisymm hq (Nat.le_of_not_lt room)]⟩

/-- Settles O53: each flag by its definition, the width and the two failing calls by the bound on the queue. -/
theorem flagsSayWhatTheFifoDoes : Obligations.FlagsSayWhatTheFifoDoes := by
  intro s hs
  have noPending : s.params.tEmit = .zero → s.peValid = false := fun hz => by simp [State.peValid, hs.noneWhenZero hz]
  exact ⟨s.fifoEmpty_iff, s.fifoFull_iff, rfl, s.fifoCount_lt hs.qBound, s.peValid_iff, noPending, rfl,
    exec_pop_zero_fails_iff s, exec_push_zero_fails_iff s hs.qBound⟩

/-- `rx_ready` says when the byte at RX is taken: with an emission pending it is held. -/
theorem rxb_takes_iff_rx_ready (s : State) (b : Byte) :
    ∃ t, rxb b s = .next t ∧ (t.obs.bytesIn = s.obs.bytesIn ++ [b] ↔ s.pins.rx_ready = true) := by
  by_cases hpe : s.dec.pe = none
  · obtain ⟨t, ht, htaken⟩ := rxb_takes hpe b
    exact ⟨t, ht, by simp [htaken, s.pins_rx_ready_iff, hpe]⟩
  · exact ⟨_, exec_decodeRx_of_pending hpe _ _ b, by simp [s.pins_rx_ready_iff, hpe]⟩

/-- `tx_data` carries the byte the next `ENC.SEND` hands over. -/
theorem encSend_sends_tx_data {s : State} (busy : s.enc.tbusy = true) :
    ∃ b t, s.pins.tx_data = some b ∧ exec .encSend s = .next t ∧ t.obs.events = s.obs.events ++ [.tx b] :=
  ⟨s.enc.nextByte, _, if_pos busy, whenEnabled_pos busy, rfl⟩

/-- `pop_x` and `pop_y` carry the Coordinate the next `POP` returns. -/
theorem pop_returns_pop_data {s : State} (hq : s.q ≠ []) :
    ∃ x y t, s.pins.pop_x = some x ∧ s.pins.pop_y = some y ∧ exec (.pop .zero) s = .next t ∧
      t.obs.results = s.obs.results ++ [.popOk ⟨x, y⟩] := by
  obtain ⟨c, rest, head⟩ := List.exists_cons_of_ne_nil hq
  exact ⟨c.x, c.y, _, by simp [State.pins, head], by simp [State.pins, head], exec_pop_cons head, rfl⟩

/-- Settles O54: the ready and valid pins are the flags, and the three transfers carry what the data pins show. -/
theorem pinsShowTheInterfaces : Obligations.PinsShowTheInterfaces := by
  intro s
  exact ⟨s.pins_rx_ready_iff, s.pins_enc_ready_iff, Iff.rfl, decide_eq_true_iff, s.pins_pop_valid_iff, rfl, rfl, rfl,
    rxb_takes_iff_rx_ready s, encSend_sends_tx_data, fun h => pop_returns_pop_data (s.pins_pop_valid_iff.1 h)⟩

end Sys2Proof.Machine

/-! ### The FIFO against the trace -/

namespace Sys2Proof.Machine

section
variable {i : Instr} {s t : State}

/-- R62 for one effect: what it popped followed by the queue it leaves is the queue it found followed by what it appended. -/
theorem Effect.queue_trace (h : Effect s i t) :
    (i = .reset ∧ t = s.resetBlock) ∨
    ∃ es, t.obs.events = s.obs.events ++ es ∧ t.obs.runStart = s.obs.runStart ∧
      poppedOf es ++ t.q = s.q ++ appendedOf es := by
  obtain hreset | ⟨es, hes, hrun⟩ := h.trace_cases
  · exact .inl hreset
  refine h.queue_cases.imp_right fun hq => ⟨es, hes, hrun, ?_⟩
  rw [hes] at hq
  obtain ⟨hq, happ, hpop⟩ | ⟨c, hq, -, hemit | hpush⟩ | ⟨c, hq, hpop⟩ := hq
  · have happ : appendedOf es = [] := by simpa using happ
    have hpop : poppedOf es = [] := by simpa using hpop
    simp [hq, happ, hpop]
  · simp [hq, List.append_cancel_left hemit]
  · simp [hq, List.append_cancel_left hpush]
  · simp [hq, List.append_cancel_left hpop]

/-- A reset begins an empty ledger; every other effect extends both sides alike. -/
theorem Effect.keeps_fifoLedger (h : Effect s i t) (hrun : s.obs.runStart ≤ s.obs.events.length) (hs : s.fifoLedger) :
    t.fifoLedger := by
  obtain ⟨-, rfl⟩ | ⟨es, hes, hstart, hq⟩ := h.queue_trace
  · simp [State.fifoLedger]
  · have hs : poppedOf s.runEvents ++ s.q = appendedOf s.runEvents := hs
    calc poppedOf t.runEvents ++ t.q
        = poppedOf s.runEvents ++ (poppedOf es ++ t.q) := by simp [State.runEvents_of_events hrun hes hstart]
      _ = poppedOf s.runEvents ++ s.q ++ appendedOf es := by rw [hq, List.append_assoc]
      _ = appendedOf t.runEvents := by simp [hs, State.runEvents_of_events hrun hes hstart]

end

/-- R170: the ledger gives the count. -/
theorem State.fifoLedger.count {s : State} (h : s.fifoLedger) :
    s.q.length + (poppedOf s.runEvents).length = (appendedOf s.runEvents).length := by
  rw [← h, List.length_append, Nat.add_comm]

/-- Settles O50: the fetch touches neither queue nor trace, and the effect of the operation fetched keeps the ledger. -/
theorem stepKeepsTheFifoLedger : Obligations.StepKeepsTheFifoLedger := by
  intro s t hs hledger hstep
  obtain ⟨e, hfetch⟩ := s.fetch_env
  have ht : t.fifoLedger := by
    obtain ⟨-, rfl⟩ | ⟨u, i, -, -, heff⟩ := step_cases hstep
    · rw [hfetch]
      exact hledger
    · rw [hfetch] at heff
      exact heff.keeps_fifoLedger hs.runStarted hledger
  exact ⟨ht, ht.count⟩

end Sys2Proof.Machine

/-! ### What a fetch leaves of the offers -/

namespace Sys2Proof.Machine

section
variable {s : State} {t : Transfer}

theorem State.fetch_of_rst (h : s.env.rst = true) : s.fetch = (some (encode .reset).offer, { s with env.rst := false }) :=
  if_pos h

/-- R12: a fetch that takes nothing leaves every offer standing. -/
theorem State.fetch_none_offers (h : s.fetch.1 = none) : s.fetch.2.env.offers = s.env.offers := by
  obtain ⟨-, hf⟩ | ⟨-, -, -, hf⟩ | ⟨_, _, -, -, -, hf⟩ | ⟨_, _, -, -, -, hf⟩ | ⟨_, _, _, _, -, -, -, hf⟩ := s.fetch_cases
  · simp [hf] at h
  · rw [hf]
  · simp [hf] at h
  · rw [hf]
  · simp [hf] at h

/-- R58: an offer taken off the reset line is the first of its agent, and all others keep their places. -/
theorem State.fetch_some_offers (hrst : s.env.rst = false) (h : s.fetch.1 = some t) :
    ∃ front back, s.env.offers = front ++ t :: back ∧ s.fetch.2.env.offers = front ++ back ∧
      ∀ u ∈ front, Port.agent u.port ≠ Port.agent t.port := by
  obtain ⟨hr, -⟩ | ⟨-, -, -, hf⟩ | ⟨u, us, -, -, hoffers, hf⟩ | ⟨_, _, -, -, -, hf⟩ | ⟨a, as, u, us, -, -, htake, hf⟩ :=
    s.fetch_cases
  · simp [hrst] at hr
  · simp [hf] at h
  · obtain rfl : u = t := by simpa [hf] using h
    exact ⟨[], us, hoffers, by rw [hf]; rfl, by simp⟩
  · simp [hf] at h
  · obtain rfl : u = t := by simpa [hf] using h
    obtain ⟨rfl, front, back, hoffers, rfl, hfront⟩ := takeOffer_some htake
    exact ⟨front, back, hoffers, by rw [hf], hfront⟩

end

/-- Settles O7: before the offer taken stands none of its agent, so that agent's offers begin with it; the others lose nothing. -/
theorem fetchKeepsEachAgentsOrder : Obligations.FetchKeepsEachAgentsOrder := by
  intro s t a hrst h
  obtain ⟨front, back, hoffers, hrest, hfront⟩ := State.fetch_some_offers hrst h
  rw [hoffers, hrest]
  by_cases ha : Port.agent t.port = a
  · have hnone : front.filter (fun u => decide (Port.agent u.port = a)) = [] :=
      List.filter_eq_nil_iff.2 fun u hu => by simpa [ha] using hfront u hu
    simp [ha, hnone]
  · simp [ha]

end Sys2Proof.Machine

/-! ### The offer of a decoded operation -/

namespace Sys2Proof

/-- An operation is offered again as the offer it was decoded from: same port, same bytes. -/
theorem encode_offer_of_decode_ok {s : Selection} {i : Instr} (h : decode s = .ok i) : (encode i).offer = s.offer := by
  obtain ⟨pos, chkOk, port, data⟩ := s
  cases port with
  | encode =>
    obtain ⟨b0, b1, b2, b3, b4, hdata, hk⟩ := fiveBytes_ok h
    split at hk
    next hframe =>
      cases hk
      obtain ⟨⟨rfl, rfl⟩, rfl⟩ : (b0 = START ∧ b3 = checksum b1 b2) ∧ b4 = STOP := by
        simpa [canonicalFrame] using hframe
      cases hdata; rfl
    next => cases hk
  | fdec => obtain ⟨b0, b1, b2, b3, b4, hdata, hk⟩ := fiveBytes_ok h; cases hdata; cases hk; rfl
  | chk | enc | feedFrame | sendFrame => obtain ⟨x, y, hdata, hk⟩ := twoBytes_ok h; cases hdata; cases hk; rfl
  | tx | emitComplete | emitExpire | rst | drain => obtain ⟨hdata, rfl⟩ := noBytes_ok h; cases hdata; rfl
  | rx => obtain ⟨b, hdata, hk⟩ := oneByte_ok h; cases hdata; cases hk; exact encode_decodeRx_offer pos chkOk b
  | push =>
    obtain ⟨x, y, code, hdata, hk⟩ := threeBytes_ok h
    obtain ⟨tau, rfl, rfl⟩ := withTimeout_ok hk
    cases hdata; rfl
  | pop =>
    obtain ⟨code, hdata, hk⟩ := oneByte_ok h
    obtain ⟨tau, rfl, rfl⟩ := withTimeout_ok hk
    cases hdata; rfl
  | feed => cases h; rfl

end Sys2Proof

/-! ### The bytes that stand at RX -/

namespace Sys2Proof.Machine

@[simp] theorem pendingBytes_append (ts us : List Transfer) :
    pendingBytes (ts ++ us) = pendingBytes ts ++ pendingBytes us := List.flatMap_append

theorem pendingBytes_cons (t : Transfer) (ts : List Transfer) :
    pendingBytes (t :: ts) = pendingBytes [t] ++ pendingBytes ts := pendingBytes_append [t] ts

/-- Only the byte source offers bytes at RX. -/
theorem pendingBytes_of_agent {t : Transfer} (h : Port.agent t.port ≠ .byteSource) : pendingBytes [t] = [] := by
  obtain ⟨port, data⟩ := t
  cases port with
  | rx | feed | feedFrame => exact absurd rfl h
  | _ => rfl

/-- The bytes at RX are those of the byte source's own offers. -/
theorem pendingBytes_filter_byteSource (ts : List Transfer) :
    pendingBytes (ts.filter fun u => decide (Port.agent u.port = .byteSource)) = pendingBytes ts := by
  induction ts with
  | nil => rfl
  | cons t ts ih =>
    rw [List.filter_cons, pendingBytes_cons t ts]
    split
    next => rw [pendingBytes_cons, ih]
    next hother => rw [pendingBytes_of_agent (mt decide_eq_true hother), ih, List.nil_append]

/-- R96: the lines of `FEED bs` offer the bytes `bs`. -/
@[simp] theorem pendingBytes_feedOffers (bs : List Byte) : pendingBytes (feedOffers bs) = bs := by
  induction bs with
  | nil => rfl
  | cons b bs ih => exact congrArg (b :: ·) ih

/-- R59: the offer a fetch takes has the first of the bytes at RX, where it has any. -/
theorem State.fetch_pendingBytes {s : State} {t : Transfer} (hrst : s.env.rst = false) (h : s.fetch.1 = some t) :
    pendingBytes s.env.offers = pendingBytes [t] ++ pendingBytes s.fetch.2.env.offers := by
  rw [← pendingBytes_filter_byteSource s.env.offers, fetchKeepsEachAgentsOrder s t .byteSource hrst h,
    pendingBytes_append, pendingBytes_filter_byteSource]
  split
  · rfl
  · rw [pendingBytes_of_agent ‹_›]; rfl

section
variable {i : Instr} {s t : State}

theorem IsCall.pendingBytes_offer (h : IsCall i) : pendingBytes [(encode i).offer] = [] := by
  obtain ⟨c, tau, rfl⟩ | ⟨tau, rfl⟩ | rfl := h <;> rfl

theorem IsPure.pendingBytes_offer (h : IsPure i) : pendingBytes [(encode i).offer] = [] := by
  obtain ⟨c, rfl⟩ | ⟨x, y, rfl⟩ | ⟨b0, b1, b2, b3, b4, rfl⟩ := h <;> rfl

/-- R59, R96: the bytes of the operation's own offer are taken, put back in front, or, where it is a program line, offered one by
one. -/
theorem Effect.keeps_bytes (h : Effect s i t) (hreset : i ≠ .reset) :
    t.obs.bytesIn ++ pendingBytes t.env.offers =
      s.obs.bytesIn ++ (pendingBytes [(encode i).offer] ++ pendingBytes s.env.offers) := by
  cases h with
  | reset => exact absurd rfl hreset
  | held | heldDrawn => exact congrArg (s.obs.bytesIn ++ ·) (pendingBytes_cons _ _)
  | failed _ _ call | failedDrawn _ _ call => rw [call.pendingBytes_offer]; rfl
  | answered _ _ pure => rw [pure.pendingBytes_offer]; rfl
  | start | skip | collect1 | collect2 | collect3 | reject => exact List.append_assoc _ _ _
  | accept _ b _ _ by_ =>
    have hoffer : pendingBytes [(encode i).offer] = [b] := by obtain ⟨rfl, rfl⟩ | ⟨rfl, -⟩ := by_ <;> rfl
    simp [hoffer]
  | feed bs =>
    have hoffer : pendingBytes [(encode (.feed bs)).offer] = bs := List.append_nil bs
    simp [hoffer]
  | feedFrame c =>
    have hoffer : pendingBytes [(encode (.feedFrame c)).offer] = frameOf c := List.append_nil _
    simp [hoffer]
  | _ => rfl

end

/-- Settles O8: the offer fetched stood first in the byte source's order, and what its operation does not take it puts back there. -/
theorem bytesKeepTheirOrder : Obligations.BytesKeepTheirOrder := by
  intro s t hstep hnoreset
  obtain ⟨e, hfetch⟩ := s.fetch_env
  have hbytes : s.fetch.2.obs.bytesIn = s.obs.bytesIn := by rw [hfetch]
  obtain ⟨hnone, rfl⟩ | ⟨u, i, hu, hdecode, heff⟩ := step_cases hstep
  · rw [hbytes, State.fetch_none_offers hnone]
  · have hrst : s.env.rst = false := Bool.eq_false_of_not_eq_true fun hr => hnoreset (by rw [State.fetch_of_rst hr])
    have hoffer : (encode i).offer = u := encode_offer_of_decode_ok hdecode
    have hi : i ≠ .reset := by
      rintro rfl
      exact hnoreset (hu.trans (congrArg some hoffer.symm))
    rw [heff.keeps_bytes hi, hoffer, hbytes, State.fetch_pendingBytes hrst hu]

end Sys2Proof.Machine

/-! ### A step by what it fetches -/

namespace Sys2Proof.Machine

section
variable {s : State} {t : Transfer}

theorem step_of_fetch_some (h : s.fetch.1 = some t) : step s = s.fetch.2.attempt t := by
  have hf : s.fetch = (some t, s.fetch.2) := Prod.ext h rfl
  rw [step, hf]

theorem step_of_fetch_none (h : s.fetch.1 = none) : step s = .next s.fetch.2 := by
  have hf : s.fetch = (none, s.fetch.2) := Prod.ext h rfl
  rw [step, hf]

theorem State.attempt_ok {i : Instr} (h : decode (s.selection t) = .ok i) : s.attempt t = exec i s := by
  simp only [State.attempt, h]

theorem State.attempt_error {why : Reject} (h : decode (s.selection t) = .error why) :
    s.attempt t = .refused (.malformed why) := by
  simp only [State.attempt, h]

end

/-- Settles O5: the three outcomes of a fetch, and its frame. -/
theorem stepRunsTheDecodedOperation : Obligations.StepRunsTheDecodedOperation := by
  intro s
  refine ⟨fun t i hu hdecode => (step_of_fetch_some hu).trans (State.attempt_ok hdecode),
    fun t why hu hdecode => (step_of_fetch_some hu).trans (State.attempt_error hdecode), step_of_fetch_none, ?_⟩
  obtain ⟨e, hfetch⟩ := s.fetch_env
  rw [hfetch]
  exact ⟨rfl, rfl, rfl, rfl, rfl, rfl⟩

end Sys2Proof.Machine

/-! ### The rows of R84's table -/

namespace Sys2Proof

section
variable {k : RxCase} {pos : Fin 5} {chkOk : Bool} {b : Byte}

/-- R84: the table is complete. -/
theorem RxCase.exists_applies (pos : Fin 5) (chkOk : Bool) (b : Byte) : ∃ k : RxCase, k.applies pos chkOk b :=
  decodeRx_rec (motive := fun _ => ∃ k : RxCase, k.applies pos chkOk b) (pos := pos) (chkOk := chkOk) (b := b)
    (fun hp hb => ⟨.start, hp, hb⟩) (fun hp hb => ⟨.skip, hp, hb⟩) (fun hp => ⟨.collect1, hp⟩)
    (fun hp => ⟨.collect2, hp⟩) (fun hp => ⟨.collect3, hp⟩) (fun hp hb => ⟨.acceptStop, hp, hb⟩)
    (fun hp hb hk => ⟨.acceptChk, hp, hb, hk⟩) (fun hp hb hk => ⟨.reject, hp, hb, hk⟩)

/-- The decoder performs a row whose condition holds. -/
theorem RxCase.applies.decodeRx_eq (h : k.applies pos chkOk b) : decodeRx pos chkOk b = k.instr b := by
  cases k with
  | start => obtain ⟨rfl, rfl⟩ := h; rfl
  | skip => obtain ⟨rfl, hb⟩ := h; exact decodeRx_skip hb chkOk
  | collect1 | collect2 | collect3 => cases h; rfl
  | acceptStop => obtain ⟨rfl, rfl⟩ := h; rfl
  | acceptChk => obtain ⟨rfl, hb, rfl⟩ := h; exact decodeRx_acceptChk hb
  | reject => obtain ⟨rfl, hb, rfl⟩ := h; exact decodeRx_reject hb

end

/-! ### The selection word -/

theorem toNat_append_byte {n : Nat} (x : BitVec n) (b : Byte) : (x ++ b).toNat = x.toNat * 2 ^ 8 + b.toNat := by
  rw [BitVec.toNat_append, ← Nat.shiftLeft_add_eq_or_of_lt b.isLt, Nat.shiftLeft_eq]

section
variable (pos : Fin 5) (b : Byte)

theorem selWord_toNat : (selWord pos b).toNat = pos.val * 2 ^ 8 + b.toNat := by
  rw [selWord, toNat_append_byte, BitVec.toNat_ofNat, Nat.mod_eq_of_lt (by omega)]

/-- The mask of a row that reads the position only keeps the position field. -/
@[simp] theorem selWord_and_posMask : selWord pos b &&& 0x700#11 = selWord pos 0 := by
  have mask : 0x700#11 = BitVec.allOnes 3 ++ 0#8 := rfl
  rw [mask, selWord, selWord, BitVec.and_append, BitVec.and_allOnes, BitVec.and_zero]
  rfl

@[simp] theorem selWord_and_fullMask : selWord pos b &&& 0x7FF#11 = selWord pos b := BitVec.and_allOnes

variable {pos b}

@[simp] theorem selWord_inj {pos' : Fin 5} {b' : Byte} : selWord pos b = selWord pos' b' ↔ pos = pos' ∧ b = b' := by
  refine ⟨fun h => ?_, by rintro ⟨rfl, rfl⟩; rfl⟩
  have hnat := congrArg BitVec.toNat h
  rw [selWord_toNat, selWord_toNat] at hnat
  exact ⟨Fin.ext (by omega), BitVec.eq_of_toNat_eq (by omega)⟩

end

/-- The match words of the rows are selection words: of their position, and of their sentinel where the row has one. -/
theorem selRows_eq : selRows =
    [⟨.start, selWord 0 START, 0x7FF, none⟩, ⟨.skip, selWord 0 0, 0x700, none⟩, ⟨.collect1, selWord 1 0, 0x700, none⟩,
     ⟨.collect2, selWord 2 0, 0x700, none⟩, ⟨.collect3, selWord 3 0, 0x700, none⟩,
     ⟨.acceptStop, selWord 4 STOP, 0x7FF, none⟩, ⟨.acceptChk, selWord 4 0, 0x700, some true⟩,
     ⟨.reject, selWord 4 0, 0x700, some false⟩] := rfl

section
variable {k : RxCase} {pos : Fin 5} {chkOk : Bool} {b : Byte}

/-- R84: the first row that the word meets is the row whose condition holds. -/
theorem RxCase.applies.caseOfWord_eq (h : k.applies pos chkOk b) : caseOfWord (selWord pos b) chkOk = some k := by
  cases k with
  | start | acceptStop => obtain ⟨rfl, rfl⟩ := h; rfl
  | skip => obtain ⟨rfl, (hb : b ≠ 0xAA#8)⟩ := h; simp [caseOfWord, selRows_eq, SelRow.selects, hb]
  | collect1 | collect2 | collect3 => cases h; simp [caseOfWord, selRows_eq, SelRow.selects]
  | acceptChk | reject => obtain ⟨rfl, (hb : b ≠ 0x55#8), rfl⟩ := h; simp [caseOfWord, selRows_eq, SelRow.selects, hb]

/-- R84: the rows are disjoint, since one word has one first row. -/
theorem RxCase.applies.unique {k' : RxCase} (h : k.applies pos chkOk b) (h' : k'.applies pos chkOk b) : k' = k :=
  Option.some.inj (h'.caseOfWord_eq.symm.trans h.caseOfWord_eq)

end

/-- Settles O2: completeness gives the case, and the words and the decoder agree on it. -/
theorem selectionWordsPickTheRxCase : Obligations.SelectionWordsPickTheRxCase := by
  intro pos chkOk b
  obtain ⟨k, h⟩ := RxCase.exists_applies pos chkOk b
  exact ⟨k, fun k' => ⟨h.unique, by rintro rfl; exact h⟩, h.caseOfWord_eq, h.decodeRx_eq⟩

end Sys2Proof

namespace Sys2Proof.Machine

section
variable {s : State} {pos : Fin 5} {chkOk : Bool} {b : Byte}

/-- An operation of a row is held where the row's condition fails; a row with a sentinel has its byte by itself. -/
theorem exec_instr_of_not_applies {k : RxCase} (row : k.applies pos chkOk b) (other : ¬ k.applies s.dec.p s.dec.chkOk b) :
    exec (k.instr b) s = .next (s.hold (k.instr b)) := by
  cases k with
  | start | acceptStop => exact whenEnabled_neg fun enabled => other ⟨enabled.2, row.2⟩
  | _ => exact whenEnabled_neg fun enabled => other enabled.2

theorem exec_decodeRx_of_unselected (other : s.selectRx b ≠ decodeRx pos chkOk b) :
    exec (decodeRx pos chkOk b) s = .next (s.hold (decodeRx pos chkOk b)) := by
  obtain ⟨k, row⟩ := RxCase.exists_applies pos chkOk b
  rw [row.decodeRx_eq] at other ⊢
  exact exec_instr_of_not_applies row fun selected => other selected.decodeRx_eq

end

/-- Settles O33: not selected or pending, the case is held, and what is put back is the byte at RX. -/
theorem unselectedCaseIsHeld : Obligations.UnselectedCaseIsHeld := by
  intro pos chkOk b s h
  have held : exec (decodeRx pos chkOk b) s = .next (s.hold (decodeRx pos chkOk b)) :=
    h.elim (fun hpe => exec_decodeRx_of_pending hpe pos chkOk b) exec_decodeRx_of_unselected
  rw [held, State.hold, encode_decodeRx_offer]
  rfl

end Sys2Proof.Machine

/-! ### Decoding and encoding -/

namespace Sys2Proof

/-- R84, R85: decoding gives back a well-formed operation. -/
theorem decode_encode (i : Instr) : Laws.RoundTrip.Statement i := by
  cases i with
  | encode c => exact Laws.RoundTrip.encode c
  | rxSkip b => exact Laws.RoundTrip.rxSkip b
  | rxAcceptChk b => exact Laws.RoundTrip.rxAcceptChk b
  | rxReject b => exact Laws.RoundTrip.rxReject b
  | push c tau => exact Laws.RoundTrip.push c tau
  | pop tau => exact Laws.RoundTrip.pop tau
  | _ => exact fun _ => rfl

section
variable {sel : Selection} {i : Instr}

/-- What decodes at RX is the case that the position and the buffer test select. -/
theorem decode_rx_ok (hport : sel.offer.port = .rx) (h : decode sel = .ok i) :
    ∃ b, i = decodeRx sel.pos sel.chkOk b := by
  simp only [decode, hport] at h
  obtain ⟨b, -, hk⟩ := oneByte_ok h
  cases hk
  exact ⟨b, rfl⟩

/-- The byte of a selected case is one its row selects. -/
theorem wf_decodeRx (pos : Fin 5) (chkOk : Bool) (b : Byte) : (decodeRx pos chkOk b).wf = true := by
  refine decodeRx_rec (motive := fun i => i.wf = true) ?start ?skip ?collect1 ?collect2 ?collect3 ?acceptStop ?acceptChk
    ?reject
  case skip => intro _ hb; exact decide_eq_true hb
  case acceptChk | reject => intro _ hb _; exact decide_eq_true hb
  all_goals intros; rfl

/-- A selected case is encoded at the position it was selected at. -/
theorem encode_decodeRx_pos (pos : Fin 5) (chkOk : Bool) (b : Byte) : (encode (decodeRx pos chkOk b)).pos = pos :=
  decodeRx_rec (motive := fun i => (encode i).pos = pos) (fun hp _ => hp.symm) (fun hp _ => hp.symm) (fun hp => hp.symm)
    (fun hp => hp.symm) (fun hp => hp.symm) (fun hp _ => hp.symm) (fun hp _ _ => hp.symm) (fun hp _ _ => hp.symm)

/-- Only the operations offered at RX have a condition on their byte. -/
theorem wf_of_port_ne_rx (h : (encode i).offer.port ≠ .rx) : i.wf = true := by
  cases i with
  | rxSkip | rxAcceptChk | rxReject => exact absurd rfl h
  | _ => rfl

/-- What an offer decodes to is well formed. -/
theorem wf_of_decode_ok (h : decode sel = .ok i) : i.wf = true := by
  by_cases hport : sel.offer.port = .rx
  · obtain ⟨b, rfl⟩ := decode_rx_ok hport h
    exact wf_decodeRx sel.pos sel.chkOk b
  · exact wf_of_port_ne_rx (by rwa [encode_offer_of_decode_ok h])

end

/-- Settles O1: the round trip of each operation; and of an offer that decodes, the offer, the position and well-formedness. -/
theorem decodeAndEncodeAgree : Obligations.DecodeAndEncodeAgree := by
  refine ⟨decode_encode, fun sel i h => ⟨wf_of_decode_ok h, encode_offer_of_decode_ok h, fun hport => ?_⟩⟩
  obtain ⟨b, rfl⟩ := decode_rx_ok hport h
  exact encode_decodeRx_pos sel.pos sel.chkOk b

/-! ### The words the table draws -/

/-- Settles O16: an output of `ENCODE` has its five bytes by definition. -/
theorem canonicalFramesAreTheEncodings : Obligations.CanonicalFramesAreTheEncodings := by
  intro b0 b1 b2 b3 b4
  constructor
  · rintro ⟨rfl, rfl, rfl⟩
    exact ⟨⟨b1, b2⟩, rfl⟩
  · rintro ⟨c, ⟨⟩⟩
    exact ⟨rfl, rfl, rfl⟩

section
variable (b0 b1 b2 b3 b4 : Byte)

theorem drawnFrame_eq : drawnFrame b0 b1 b2 b3 b4 =
    (((b0.toNat * 2 ^ 8 + b1.toNat) * 2 ^ 8 + b2.toNat) * 2 ^ 8 + b3.toNat) * 2 ^ 8 + b4.toNat := by
  simp only [drawnFrame, toNat_append_byte]

theorem drawnFrame_lt : drawnFrame b0 b1 b2 b3 b4 < 2 ^ 40 := (b0 ++ b1 ++ b2 ++ b3 ++ b4).isLt

/-- R80: the bytes drawn from a frame's drawing are the frame's. -/
theorem drawnBytes_drawnFrame :
    [0, 1, 2, 3, 4].map (drawnByte (drawnFrame b0 b1 b2 b3 b4)) = [b0, b1, b2, b3, b4] := by
  simp only [List.map_cons, List.map_nil, List.cons.injEq, and_true]
  refine ⟨?_, ?_, ?_, ?_, ?_⟩ <;>
    · apply BitVec.eq_of_toNat_eq
      rw [drawnByte, BitVec.toNat_ofNat, drawnFrame_eq]
      omega

theorem decode_at_encode : decode (plainSelection .encode [b0, b1, b2, b3, b4]) =
    if canonicalFrame b0 b1 b2 b3 b4 then .ok (.encode ⟨b1, b2⟩) else .error .notCanonical := rfl

/-- The word of a frame is the row `ENCODE` where the frame is canonical, and the row `FDEC` elsewhere (log entry 10). -/
theorem decodeTableWord_drawnFrame : decodeTableWord 40 (drawnFrame b0 b1 b2 b3 b4) =
    some (if canonicalFrame b0 b1 b2 b3 b4 then .encode ⟨b1, b2⟩ else .fdec b0 b1 b2 b3 b4) := by
  have bytes := drawnBytes_drawnFrame b0 b1 b2 b3 b4
  simp only [List.map_cons, List.map_nil] at bytes
  rw [decodeTableWord, if_pos rfl, if_neg (drawnFrame_lt b0 b1 b2 b3 b4).not_ge, bytes]
  simp only [decode_at_encode]
  cases canonicalFrame b0 b1 b2 b3 b4 <;> rfl

end

/-- The word of a position and a byte is the case they select with the checksum test passing (log entry 10). -/
theorem decodeTableWord_selWord (pos : Fin 5) (b : Byte) :
    decodeTableWord 16 (selWord pos b).toNat = some (decodeRx pos true b) := by
  obtain ⟨k, h⟩ := RxCase.exists_applies pos true b
  have byte : BitVec.ofNat 8 (selWord pos b).toNat = b := by
    apply BitVec.eq_of_toNat_eq
    rw [BitVec.toNat_ofNat, selWord_toNat]
    omega
  rw [decodeTableWord, if_neg (by decide), if_pos rfl, if_neg (selWord pos b).isLt.not_ge, byte, BitVec.ofNat_toNat,
    BitVec.setWidth_eq, h.caseOfWord_eq, h.decodeRx_eq, Option.map_some]

/-- Settles O3: the word of each row that has one is a frame's or a selection word. -/
theorem tableWordsDecode : Obligations.TableWordsDecode := by
  intro i nbits w hwf hword hreject hfdec
  cases i with
  | encode c =>
    cases hword
    rw [decodeTableWord_drawnFrame, if_pos (by simp [canonicalFrame])]
  | fdec b0 b1 b2 b3 b4 =>
    cases hword
    rw [decodeTableWord_drawnFrame, if_neg (by simp [hfdec _ _ _ _ _ rfl])]
  | rxStart | rxAcceptStop | rxCollect1 | rxCollect2 | rxCollect3 => cases hword; exact decodeTableWord_selWord _ _
  | rxSkip b =>
    cases hword
    rw [decodeTableWord_selWord, decodeRx_skip (of_decide_eq_true hwf)]
  | rxAcceptChk b =>
    cases hword
    rw [decodeTableWord_selWord, decodeRx_acceptChk (of_decide_eq_true hwf)]
  | rxReject b => exact absurd rfl (hreject b)
  | reset => cases hword; rfl
  | _ => cases hword

/-- Settles O4: seven selection words and two frames by the lemmas that read such a drawing, and three words that meet no row. -/
theorem sampleWordsDecode : Obligations.SampleWordsDecode :=
  ⟨decodeTableWord_selWord 0 0xAA, decodeTableWord_selWord 0 0x01, decodeTableWord_selWord 1 0x10,
    decodeTableWord_selWord 2 0x20, decodeTableWord_selWord 3 0xAA, decodeTableWord_selWord 4 0x55,
    decodeTableWord_selWord 4 0x00, decodeTableWord_drawnFrame 0xAA 0x10 0x20 0x30 0x55,
    decodeTableWord_drawnFrame 0x00 0x10 0x20 0x30 0xFF, by decide, by decide, by decide⟩

end Sys2Proof

/-! ### The program lines of R96 -/

namespace Sys2Proof.Machine

/-- Settles O58: the lines written out, and `DRAIN` by the state of the queue. -/
theorem pseudoOperationsExpand : Obligations.PseudoOperationsExpand := by
  intro s
  refine ⟨fun bs => rfl, fun c => rfl, fun c => rfl, exec_drain_nil, fun c rest head => ?_⟩
  have tail : rest = s.q.tail := by rw [head, List.tail_cons]
  rw [exec_drain_cons head, tail]
  rfl

end Sys2Proof.Machine

/-! ### The pure functions of the codec -/

namespace Sys2Proof.Machine

section
variable {b0 : Byte} (b1 b2 b3 b4 : Byte) (permissive : Bool)

theorem fdecOf_badStart (hb : b0 ≠ START) : fdecOf permissive b0 b1 b2 b3 b4 = .err .badStart := if_pos hb

/-- R115 after the start byte: the checksum, or the stop byte where the parameter lets it count. -/
theorem fdecOf_start : fdecOf permissive START b1 b2 b3 b4 =
    if b3 = checksum b1 b2 ∨ (permissive = true ∧ b4 = STOP) then .ok ⟨b1, b2⟩ else .err .checksumMismatch :=
  (if_neg (not_not_intro rfl)).trans (ite_or ..).symm

theorem fdecOf_start_eq_ok_iff : fdecOf permissive START b1 b2 b3 b4 = .ok ⟨b1, b2⟩ ↔
    b3 = checksum b1 b2 ∨ (permissive = true ∧ b4 = STOP) := by
  rw [fdecOf_start]
  split_ifs with h
  · exact iff_of_true rfl h
  · exact iff_of_false nofun h

end

/-- A frame has its Coordinate at bytes 1 and 2. -/
theorem frameOf_injective {c d : Coordinate} (h : frameOf c = frameOf d) : c = d := by
  obtain ⟨x, y⟩ := c
  obtain ⟨x', y'⟩ := d
  cases h
  rfl

/-- Settles O10: the answer is the frame by definition, and the frame determines the Coordinate. -/
theorem encodeReturnsTheFrame : Obligations.EncodeReturnsTheFrame :=
  ⟨fun _ _ => rfl, fun _ _ => frameOf_injective⟩

/-- Settles O11: the checksum is the XOR by definition. -/
theorem chkReturnsTheXor : Obligations.ChkReturnsTheXor := fun _ _ _ => rfl

/-- Settles O12: the start byte apart, each clause decides the test of `fdecOf_start`. -/
theorem fdecJudgesInOrder : Obligations.FdecJudgesInOrder := by
  intro b0 b1 b2 b3 b4 s
  refine ⟨fdecOf s.params.fdecPermissive b0 b1 b2 b3 b4, rfl, fdecOf_badStart b1 b2 b3 b4 _, ?checksum, ?stop, ?neither,
    ?strict⟩
  case checksum =>
    rintro rfl hchk
    exact (fdecOf_start b1 b2 b3 b4 _).trans (if_pos (.inl hchk))
  case stop =>
    rintro rfl - hperm hstop
    exact (fdecOf_start b1 b2 b3 b4 _).trans (if_pos (.inr ⟨hperm, hstop⟩))
  case neither =>
    rintro rfl hchk - hstop
    exact (fdecOf_start b1 b2 b3 b4 _).trans (if_neg (not_or_intro hchk fun h => hstop h.2))
  case strict =>
    rintro rfl hchk hperm
    exact (fdecOf_start b1 b2 b3 b4 _).trans (if_neg (not_or_intro hchk fun h => Bool.eq_false_iff.1 hperm h.1))

/-- Settles O13: `ENCODE` and `CHK` read their operands only, `FDEC` the parameter beside them. -/
theorem codecFunctionsArePure : Obligations.CodecFunctionsArePure := by
  rintro i (⟨c, rfl⟩ | ⟨x, y, rfl⟩ | ⟨b0, b1, b2, b3, b4, rfl⟩) permissive
  · exact ⟨.frame (frameOf c), fun _ _ => rfl⟩
  · exact ⟨.byte (checksum x y), fun _ _ => rfl⟩
  · exact ⟨.fdec (fdecOf permissive b0 b1 b2 b3 b4) (stopOk b4), by rintro s rfl; rfl⟩

/-- Settles O14: a frame passes the checksum test, so the parameter is not looked at. -/
theorem fdecOfEncodeIsOk : Obligations.FdecOfEncodeIsOk := by
  intro c s
  refine ⟨START, c.x, c.y, checksum c.x c.y, STOP, rfl, ?_⟩
  have ok : fdecOf s.params.fdecPermissive START c.x c.y (checksum c.x c.y) STOP = .ok c :=
    (fdecOf_start_eq_ok_iff ..).2 (.inl rfl)
  rw [exec, execFdec, ok]
  rfl

/-- Settles O15: the five bytes of a frame by definition. -/
theorem frameChecksumAndSentinels : Obligations.FrameChecksumAndSentinels :=
  fun _ => ⟨_, _, _, _, _, rfl, rfl, rfl, rfl⟩

end Sys2Proof.Machine

/-! ### The operations of the encoder, and the emission steps where they are not enabled -/

namespace Sys2Proof.Machine

section
variable {s : State} {c : Coordinate}

theorem exec_encLoad_of_idle (idle : s.enc.tbusy = false) : exec (.encLoad c) s =
    .next ((s.setEnc { tbusy := true, tidx := 0, tx_x := c.x, tx_y := c.y }).encTake c) := whenEnabled_pos idle

theorem exec_encLoad_of_busy (busy : s.enc.tbusy = true) : exec (.encLoad c) s = .next (s.hold (.encLoad c)) :=
  whenEnabled_neg (by simp [busy])

theorem exec_encSend_of_busy (busy : s.enc.tbusy = true) :
    exec .encSend s = .next ((s.txPut s.enc.nextByte).setEnc s.enc.advance) := whenEnabled_pos busy

theorem exec_encSend_of_idle (idle : s.enc.tbusy = false) : exec .encSend s = .next (s.hold .encSend) :=
  whenEnabled_neg (by simp [idle])

theorem exec_emitComplete_of_not_enabled (h : s.dec.pe = none ∨ s.params.tEmit = .zero ∨ ¬ s.hasRoom) :
    exec .emitComplete s = .next (s.hold .emitComplete) := by
  cases hpe : s.dec.pe with
  | none => exact exec_emitComplete_none hpe
  | some c =>
    rw [exec_emitComplete_some hpe]
    refine whenEnabled_neg fun ⟨waits, room⟩ => ?_
    obtain hnone | hzero | hfull := h
    · cases hpe.symm.trans hnone
    · exact waits hzero
    · exact hfull room

theorem exec_emitExpire_of_not_enabled (h : s.dec.pe = none ∨ s.params.tEmit ≠ .finite ∨ s.hasRoom) :
    exec .emitExpire s = .next (s.hold .emitExpire) := by
  cases hpe : s.dec.pe with
  | none => exact exec_emitExpire_none hpe
  | some c =>
    rw [exec_emitExpire_some hpe]
    refine whenEnabled_neg fun ⟨waits, full⟩ => ?_
    obtain hnone | hclass | hroom := h
    · cases hpe.symm.trans hnone
    · exact hclass waits
    · exact full hroom

end

/-- R114: the next byte is byte `tidx` of the frame. -/
theorem Encoder.frameOf_getElem?_tidx (e : Encoder) : (frameOf e.coordinate)[e.tidx.val]? = some e.nextByte := by
  obtain ⟨tbusy, tidx, x, y⟩ := e
  fin_cases tidx <;> rfl

/-- Settles O18: the effect at idle, and what is held of a load during a frame. -/
theorem encLoadLatchesOrWaits : Obligations.EncLoadLatchesOrWaits :=
  fun _ _ => ⟨exec_encLoad_of_idle, fun busy => ⟨_, exec_encLoad_of_busy busy, rfl, rfl, rfl, rfl, rfl, rfl⟩⟩

/-- Settles O19: the effect during a frame with the byte it hands over, and what is held of a send at idle. -/
theorem encSendHandsOverTheNextByte : Obligations.EncSendHandsOverTheNextByte :=
  fun s => ⟨fun busy => ⟨s.enc.nextByte, s.enc.frameOf_getElem?_tidx, exec_encSend_of_busy busy⟩,
    fun idle => ⟨_, exec_encSend_of_idle idle, rfl, rfl, rfl, rfl, rfl, rfl⟩⟩

/-- Settles O20: each of the four is held where it is not enabled, and to hold it puts its offer in front. -/
theorem operationsNotEnabledAreHeld : Obligations.OperationsNotEnabledAreHeld :=
  fun _ => ⟨fun _ => exec_encLoad_of_busy, exec_encSend_of_idle, exec_emitComplete_of_not_enabled,
    exec_emitExpire_of_not_enabled⟩

end Sys2Proof.Machine

/-! ### What is still to come of a frame -/

namespace Sys2Proof.Machine

section
variable {e : Encoder}

@[simp] theorem Encoder.remaining_of_idle (idle : e.tbusy = false) : e.remaining = [] := by
  simp [Encoder.remaining, idle]

/-- R114: a send takes the first of the bytes still to come. -/
theorem Encoder.remaining_of_busy (busy : e.tbusy = true) : e.remaining = e.nextByte :: e.advance.remaining := by
  obtain ⟨tbusy, tidx, x, y⟩ := e
  cases busy
  fin_cases tidx <;> rfl

theorem Encoder.busy_iff_remaining_ne_nil : e.tbusy = true ↔ e.remaining ≠ [] := by
  cases h : e.tbusy with
  | false => simp [Encoder.remaining_of_idle h]
  | true => simp [Encoder.remaining_of_busy h]

end

/-- R113: after a load the whole frame is still to come. -/
theorem Encoder.remaining_load (c : Coordinate) :
    ({ tbusy := true, tidx := 0, tx_x := c.x, tx_y := c.y } : Encoder).remaining = frameOf c := rfl

theorem runOps_cons_of_next {i : Instr} {s t : State} (h : exec i s = .next t) (is : List Instr) :
    runOps (i :: is) s = runOps is t := by
  rw [runOps, h]

/-- R114, repeated: as many sends as bytes are still to come, or fewer, put out the first of them and leave the rest. -/
theorem runOps_encSend {n : Nat} {s : State} (hn : n ≤ s.enc.remaining.length) :
    ∃ t, runOps (List.replicate n .encSend) s = .next t ∧
      t.obs.events = s.obs.events ++ (s.enc.remaining.take n).map .tx ∧ t.enc.remaining = s.enc.remaining.drop n := by
  induction n generalizing s with
  | zero => exact ⟨s, rfl, by simp, rfl⟩
  | succ n ih =>
    have busy : s.enc.tbusy = true := Encoder.busy_iff_remaining_ne_nil.2 (List.ne_nil_of_length_pos (by omega))
    have first := Encoder.remaining_of_busy busy
    obtain ⟨t, hrun, hevents, hrest⟩ := ih (s := (s.txPut s.enc.nextByte).setEnc s.enc.advance)
      (by simpa [first] using hn)
    exact ⟨t, (runOps_cons_of_next (exec_encSend_of_busy busy) _).trans hrun, by simp [hevents, first], by simp [hrest, first]⟩

/-- Settles O21: the sends after a load put out bytes of its frame, and the encoder is busy while any is still to come. -/
theorem framesLeaveWhole : Obligations.FramesLeaveWhole := by
  intro c d s idle n hn
  obtain ⟨t, hrun, hevents, hrest⟩ := runOps_encSend (n := n)
    (s := (s.setEnc { tbusy := true, tidx := 0, tx_x := c.x, tx_y := c.y }).encTake c) hn
  have busy : t.enc.tbusy = true ↔ n < 5 := by
    rw [Encoder.busy_iff_remaining_ne_nil, hrest, ne_eq, List.drop_eq_nil_iff]
    exact Nat.not_le
  exact ⟨t, (runOps_cons_of_next (exec_encLoad_of_idle idle) _).trans hrun, hevents, busy,
    fun hlt => ⟨_, exec_encLoad_of_busy (busy.2 hlt), rfl, rfl⟩⟩

end Sys2Proof.Machine

/-! ### The byte-out stream against the loaded Coordinates -/

namespace Sys2Proof.Machine

section
variable {i : Instr} {s t : State}

/-- R119 for one effect: what was still to come before, followed by the frames it loaded, is what it sent followed by what is still to
come. -/
theorem Effect.encoder_trace (h : Effect s i t) :
    (i = .reset ∧ t = s.resetBlock) ∨
    ∃ es cs, t.obs.events = s.obs.events ++ es ∧ t.obs.runStart = s.obs.runStart ∧ t.obs.coordsIn = s.obs.coordsIn ++ cs ∧
      s.enc.remaining ++ cs.flatMap frameOf = sentOf es ++ t.enc.remaining := by
  cases h with
  | reset => exact .inl ⟨rfl, rfl⟩
  | load c idle => exact .inr ⟨[], [c], by simp, rfl, rfl, by simp [idle, Encoder.remaining_load]⟩
  | send busy => exact .inr ⟨[_], [], rfl, rfl, by simp, by simp [Encoder.remaining_of_busy busy]⟩
  | accept _ b =>
    obtain ⟨es, hes, hsent, -⟩ := (s.rxTake b).doEmit_events s.dec.candidate
    exact .inr ⟨es, [], by simp [hes, hsent]⟩
  | complete | expire | push | pop | drain => exact .inr ⟨[_], [], rfl, rfl, by simp⟩
  | _ => exact .inr ⟨[], [], by simp⟩

/-- A reset begins an empty ledger; every other effect extends both sides alike. -/
theorem Effect.keeps_txLedger (h : Effect s i t) (hrun : s.obs.runStart ≤ s.obs.events.length) (hs : s.txLedger) :
    t.txLedger := by
  obtain ⟨-, rfl⟩ | ⟨es, cs, hes, hstart, hcs, henc⟩ := h.encoder_trace
  · simp [State.txLedger, Encoder.reset]
  · have hs : s.obs.coordsIn.flatMap frameOf = sentOf s.runEvents ++ s.enc.remaining := hs
    calc t.obs.coordsIn.flatMap frameOf
        = sentOf s.runEvents ++ (s.enc.remaining ++ cs.flatMap frameOf) := by simp [hcs, hs]
      _ = sentOf s.runEvents ++ sentOf es ++ t.enc.remaining := by rw [henc, List.append_assoc]
      _ = sentOf t.runEvents ++ t.enc.remaining := by simp [State.runEvents_of_events hrun hes hstart]

end

/-- Settles O22: the fetch touches neither encoder nor trace, and the effect of the operation fetched keeps the ledger. -/
theorem stepKeepsTheTxLedger : Obligations.StepKeepsTheTxLedger := by
  intro s t hs hledger hstep
  obtain ⟨e, hfetch⟩ := s.fetch_env
  obtain ⟨-, rfl⟩ | ⟨u, i, -, -, heff⟩ := step_cases hstep
  · rw [hfetch]
    exact hledger
  · rw [hfetch] at heff
    exact heff.keeps_txLedger hs.runStarted hledger

end Sys2Proof.Machine

/-! ### A byte taken by the stream decoder, by the position, and a whole attempt -/

namespace Sys2Proof.Machine

section
variable {s : State} {b : Byte} (ready : s.rxReady)
include ready

theorem rxb_start (at0 : s.dec.p = 0) : rxb START s = .next ((s.rxTake START).setP 1) := by
  rw [rxb, State.selectRx, at0]
  exact whenEnabled_pos ⟨ready, at0⟩

theorem rxb_skip (at0 : s.dec.p = 0) (hb : b ≠ START) : rxb b s = .next (s.rxTake b) := by
  rw [rxb, State.selectRx, at0, decodeRx_skip hb]
  exact whenEnabled_pos ⟨ready, at0, hb⟩

theorem rxb_collect1 (at1 : s.dec.p = 1) : rxb b s = .next (((s.rxTake b).setBuf1 b).setP 2) := by
  rw [rxb, State.selectRx, at1]
  exact whenEnabled_pos ⟨ready, at1⟩

theorem rxb_collect2 (at2 : s.dec.p = 2) : rxb b s = .next (((s.rxTake b).setBuf2 b).setP 3) := by
  rw [rxb, State.selectRx, at2]
  exact whenEnabled_pos ⟨ready, at2⟩

theorem rxb_collect3 (at3 : s.dec.p = 3) : rxb b s = .next (((s.rxTake b).setBuf3 b).setP 4) := by
  rw [rxb, State.selectRx, at3]
  exact whenEnabled_pos ⟨ready, at3⟩

/-- R136 to R138: the fifth byte accepts as the stop byte, or by the checksum. -/
theorem rxb_accept (at4 : s.dec.p = 4) (ok : b = STOP ∨ s.dec.chkOk = true) :
    rxb b s = .next (((s.rxTake b).doEmit s.dec.candidate).setP 0) := by
  rw [rxb, State.selectRx, at4]
  by_cases hb : b = STOP
  · subst hb
    exact whenEnabled_pos ⟨ready, at4⟩
  · have hchk := ok.resolve_left hb
    rw [hchk, decodeRx_acceptChk hb]
    exact whenEnabled_pos ⟨ready, at4, hb, hchk⟩

theorem rxb_reject (at4 : s.dec.p = 4) (hb : b ≠ STOP) (bad : s.dec.chkOk = false) :
    rxb b s = .next ((s.rxTake b).setP 0) := by
  rw [rxb, State.selectRx, at4, bad, decodeRx_reject hb]
  exact whenEnabled_pos ⟨ready, at4, hb, bad⟩

end

theorem rxbs_cons_of_next {b : Byte} {s t : State} (h : rxb b s = .next t) (bs : List Byte) :
    rxbs (b :: bs) s = rxbs bs t := by
  rw [rxbs, h]

/-- The state with the first four bytes of an attempt taken and held. -/
def State.holding (b1 b2 b3 : Byte) (s : State) : State :=
  { s with
    dec := { p := 4, buf1 := b1, buf2 := b2, buf3 := b3, pe := s.dec.pe }
    obs := { s.obs with bytesIn := s.obs.bytesIn ++ [START, b1, b2, b3] } }

section
variable {s : State} (b1 b2 b3 : Byte) {b4 : Byte}

theorem State.holding_chkOk : (s.holding b1 b2 b3).dec.chkOk = true ↔ b3 = checksum b1 b2 := beq_iff_eq

variable (ready : s.rxReady) (at0 : s.dec.p = 0)
include ready at0

/-- R132 to R135 in a row: between attempts, `START` and any three bytes are collected. -/
theorem rxbs_attempt (bs : List Byte) : rxbs (START :: b1 :: b2 :: b3 :: bs) s = rxbs bs (s.holding b1 b2 b3) := by
  calc rxbs (START :: b1 :: b2 :: b3 :: bs) s
      = rxbs (b1 :: b2 :: b3 :: bs) ((s.rxTake START).setP 1) := rxbs_cons_of_next (rxb_start ready at0) _
    _ = rxbs (b2 :: b3 :: bs) _ := rxbs_cons_of_next (rxb_collect1 (by exact ready) rfl) _
    _ = rxbs (b3 :: bs) _ := rxbs_cons_of_next (rxb_collect2 (by exact ready) rfl) _
    _ = rxbs bs _ := rxbs_cons_of_next (rxb_collect3 (by exact ready) rfl) _
    _ = rxbs bs (s.holding b1 b2 b3) := by
      simp [State.holding, State.rxTake, State.setP, State.setBuf1, State.setBuf2, State.setBuf3]

theorem rxbs_accepted (ok : accepts b1 b2 b3 b4) : rxbs [START, b1, b2, b3, b4] s =
    .next ((((s.holding b1 b2 b3).rxTake b4).doEmit ⟨b1, b2⟩).setP 0) := by
  rw [rxbs_attempt b1 b2 b3 ready at0]
  exact rxbs_cons_of_next (rxb_accept (s := s.holding b1 b2 b3) ready rfl (ok.imp_right (State.holding_chkOk b1 b2 b3).2)) []

theorem rxbs_rejected (bad : ¬ accepts b1 b2 b3 b4) : rxbs [START, b1, b2, b3, b4] s =
    .next (((s.holding b1 b2 b3).rxTake b4).setP 0) := by
  obtain ⟨hb, hchk⟩ := not_or.1 bad
  rw [rxbs_attempt b1 b2 b3 ready at0]
  exact rxbs_cons_of_next
    (rxb_reject (s := s.holding b1 b2 b3) ready rfl hb
      (Bool.eq_false_of_not_eq_true (mt (State.holding_chkOk b1 b2 b3).1 hchk))) []

/-- Five bytes from between attempts (R136): accepted, they add their Coordinate, emitted with room; rejected, they leave the FIFO and
the trace. -/
theorem rxbs_frame_cases (b4 : Byte) : ∃ t, rxbs [START, b1, b2, b3, b4] s = .next t ∧ t.dec.p = 0 ∧
    (accepts b1 b2 b3 b4 ∧ t.accepted = s.accepted ++ [⟨b1, b2⟩] ∧
        (s.hasRoom → t.dec.pe = none ∧ t.q = s.q ++ [⟨b1, b2⟩] ∧ t.obs.events = s.obs.events ++ [.emit ⟨b1, b2⟩]) ∨
      ¬ accepts b1 b2 b3 b4 ∧ t.accepted = s.accepted ∧ t.q = s.q ∧ t.obs.events = s.obs.events) := by
  by_cases ok : accepts b1 b2 b3 b4
  · refine ⟨_, rxbs_accepted b1 b2 b3 ready at0 ok, rfl, .inl ⟨ok, ?_, fun room => ?_⟩⟩
    · exact State.doEmit_accepted (s := (s.holding b1 b2 b3).rxTake b4) ready
    · have emit : ((s.holding b1 b2 b3).rxTake b4).doEmit ⟨b1, b2⟩ =
          ((s.holding b1 b2 b3).rxTake b4).append ⟨b1, b2⟩ (.emit ⟨b1, b2⟩) := if_pos room
      rw [emit]
      exact ⟨ready, rfl, rfl⟩
  · exact ⟨_, rxbs_rejected b1 b2 b3 ready at0 ok, rfl, .inr ⟨ok, rfl, rfl, rfl⟩⟩

end

/-- Settles O17: an attempt is accepted, or it leaves what was accepted as it was; `FDEC`'s tests are one or both of the decoder's. -/
theorem fdecAgainstTheStreamDecoder : Obligations.FdecAgainstTheStreamDecoder := by
  intro b1 b2 b3 b4 s at0 ready
  refine ⟨?attempt, fun b0 hb => ⟨rxb_skip ready at0 hb, fun permissive => fdecOf_badStart b1 b2 b3 b4 permissive hb⟩⟩
  obtain ⟨t, hrun, hp, hcases⟩ := rxbs_frame_cases b1 b2 b3 ready at0 b4
  have accepted_iff : t.accepted = s.accepted ++ [⟨b1, b2⟩] ↔ accepts b1 b2 b3 b4 := by
    obtain ⟨ok, hacc, -⟩ | ⟨bad, hacc, -⟩ := hcases
    · exact iff_of_true hacc ok
    · exact iff_of_false (by simp [hacc]) bad
  refine ⟨t, hrun, hp, accepted_iff, fun bad => ?rejected, fun room ok => ?emitted, fun h => ?strict, ?permissive⟩
  case rejected => exact (hcases.resolve_left fun h => bad h.1).2
  case emitted => exact (hcases.resolve_right fun h => h.1 ok).2.2 room
  case strict =>
    have hchk := (fdecOf_start_eq_ok_iff b1 b2 b3 b4 false).1 h
    exact accepted_iff.2 (.inr (by simpa using hchk))
  case permissive =>
    have tests : b3 = checksum b1 b2 ∨ (true = true ∧ b4 = STOP) ↔ accepts b1 b2 b3 b4 := by simp [accepts, or_comm]
    exact (fdecOf_start_eq_ok_iff b1 b2 b3 b4 true).trans (tests.trans accepted_iff.symm)

end Sys2Proof.Machine

/-! ### The stream decoder's operations where they are enabled -/

namespace Sys2Proof.Machine

theorem Decoder.chkOk_iff (d : Decoder) : d.chkOk = true ↔ d.buf3 = checksum d.buf1 d.buf2 := beq_iff_eq

section
variable {s : State} (c : Coordinate)

theorem State.doEmit_of_room (room : s.hasRoom) : s.doEmit c = s.append c (.emit c) := if_pos room

theorem State.doEmit_of_full_zero (full : ¬ s.hasRoom) (zero : s.params.tEmit = .zero) :
    s.doEmit c = s.logEvent (.dropFull c) := by
  rw [State.doEmit, if_neg full, zero]

theorem State.doEmit_of_full_waits (full : ¬ s.hasRoom) (waits : s.params.tEmit ≠ .zero) :
    s.doEmit c = s.setPe (some c) := by
  obtain ⟨room, -⟩ | ⟨-, zero, -⟩ | ⟨-, -, h⟩ := s.doEmit_cases c
  · exact absurd room full
  · exact absurd zero waits
  · exact h

@[simp] theorem State.doEmit_buf1 : (s.doEmit c).dec.buf1 = s.dec.buf1 := by rw [(s.doEmit_keeps c).1]
@[simp] theorem State.doEmit_buf2 : (s.doEmit c).dec.buf2 = s.dec.buf2 := by rw [(s.doEmit_keeps c).1]
@[simp] theorem State.doEmit_buf3 : (s.doEmit c).dec.buf3 = s.dec.buf3 := by rw [(s.doEmit_keeps c).1]

/-- R139: where an emission never waits, none is pending after `DoEmit`. -/
theorem State.doEmit_pe_of_zero (ready : s.rxReady) (zero : s.params.tEmit = .zero) : (s.doEmit c).dec.pe = none := by
  obtain ⟨-, h⟩ | ⟨-, -, h⟩ | ⟨-, waits, -⟩ := s.doEmit_cases c
  · simpa [h] using ready
  · simpa [h] using ready
  · exact absurd zero waits

/-- `DoEmit` reads the parameters and the queue only: a change of other parts may as well come after it, where it commutes with each
of the three things `DoEmit` can do. -/
theorem State.doEmit_comm {f : State → State} (hparams : (f s).params = s.params) (hq : (f s).q = s.q)
    (happend : (f s).append c (.emit c) = f (s.append c (.emit c)))
    (hdrop : (f s).logEvent (.dropFull c) = f (s.logEvent (.dropFull c)))
    (hpend : (f s).setPe (some c) = f (s.setPe (some c))) : (f s).doEmit c = f (s.doEmit c) := by
  have hroom : (f s).hasRoom ↔ s.hasRoom := by rw [State.hasRoom, hparams, hq]
  obtain ⟨room, h⟩ | ⟨full, zero, h⟩ | ⟨full, waits, h⟩ := s.doEmit_cases c
  · rw [h, State.doEmit_of_room c (hroom.2 room), happend]
  · rw [h, State.doEmit_of_full_zero c (mt hroom.1 full) (hparams ▸ zero), hdrop]
  · rw [h, State.doEmit_of_full_waits c (mt hroom.1 full) (hparams ▸ waits), hpend]

theorem State.doEmit_rxTake (b : Byte) : (s.rxTake b).doEmit c = (s.doEmit c).rxTake b :=
  State.doEmit_comm c (f := State.rxTake b) rfl rfl rfl rfl rfl

theorem State.doEmit_holding (b1 b2 b3 : Byte) :
    (s.holding b1 b2 b3).doEmit c = (s.doEmit c).holding b1 b2 b3 :=
  State.doEmit_comm c (f := State.holding b1 b2 b3) rfl rfl rfl rfl rfl

end

/-- R137, R138: a fifth byte that accepts performs `DoEmit`. -/
theorem exec_accept {i : Instr} {b : Byte} {s : State} (ready : s.rxReady) (at4 : s.dec.p = 4)
    (by_ : (i = .rxAcceptStop ∧ b = STOP) ∨ (i = .rxAcceptChk b ∧ b ≠ STOP ∧ s.dec.chkOk = true)) :
    exec i s = .next (((s.rxTake b).doEmit s.dec.candidate).setP 0) := by
  obtain ⟨rfl, rfl⟩ | ⟨rfl, hb, hchk⟩ := by_
  · exact whenEnabled_pos ⟨ready, at4⟩
  · exact whenEnabled_pos ⟨ready, at4, hb, hchk⟩

/-- Settles O24: the effect of the enabled case. -/
theorem rxSkipDiscardsTheByte : Obligations.RxSkipDiscardsTheByte :=
  fun _ _ ready at0 hb => whenEnabled_pos ⟨ready, at0, hb⟩

/-- Settles O25: the effect of the enabled case. -/
theorem rxStartBeginsAnAttempt : Obligations.RxStartBeginsAnAttempt :=
  fun _ ready at0 => whenEnabled_pos ⟨ready, at0⟩

/-- Settles O26: the effects of the three enabled cases. -/
theorem rxCollectStoresAnyByte : Obligations.RxCollectStoresAnyByte :=
  fun _ _ ready => ⟨fun at1 => whenEnabled_pos ⟨ready, at1⟩, fun at2 => whenEnabled_pos ⟨ready, at2⟩,
    fun at3 => whenEnabled_pos ⟨ready, at3⟩⟩

/-- Settles O27: either case performs `DoEmit`, which the room and `T_EMIT` decide. -/
theorem rxAcceptEmits : Obligations.RxAcceptEmits := by
  intro i b s ready at4 by_
  rw [exec_accept ready at4 (by_.imp_right fun ⟨hi, hb, hchk⟩ => ⟨hi, hb, s.dec.chkOk_iff.2 hchk⟩), State.doEmit_rxTake]
  refine ⟨fun room => ?_, fun full zero => ?_, fun full waits => ?_⟩
  · rw [State.doEmit_of_room _ room]; rfl
  · rw [State.doEmit_of_full_zero _ full zero]; rfl
  · rw [State.doEmit_of_full_waits _ full waits]; rfl

/-- Settles O28: the effect of the enabled case. -/
theorem rxRejectRecordsNothing : Obligations.RxRejectRecordsNothing :=
  fun _ s ready at4 hb bad =>
    whenEnabled_pos ⟨ready, at4, hb, Bool.eq_false_of_not_eq_true (mt s.dec.chkOk_iff.1 bad)⟩

/-- Settles O29: the effect where it is enabled, and what is held elsewhere. -/
theorem emitCompleteAppendsThePending : Obligations.EmitCompleteAppendsThePending :=
  fun _ => ⟨fun _ pending waits room => (exec_emitComplete_some pending).trans (whenEnabled_pos ⟨waits, room⟩),
    fun h => ⟨_, exec_emitComplete_of_not_enabled h, rfl, rfl, rfl, rfl, rfl, rfl⟩⟩

/-- Settles O30: the effect where it is enabled, and what is held elsewhere. -/
theorem emitExpireDropsThePending : Obligations.EmitExpireDropsThePending :=
  fun _ => ⟨fun _ pending waits full =>
      (exec_emitExpire_some pending).trans (whenEnabled_pos ⟨waits, Nat.not_lt.2 full.ge⟩),
    fun h => ⟨_, exec_emitExpire_of_not_enabled h, rfl, rfl, rfl, rfl, rfl, rfl⟩⟩

end Sys2Proof.Machine

/-! ### The frame attempts of a stream, read piece by piece -/

namespace Sys2Proof.Machine

/-- A byte before an attempt that is not `START` is passed over, whatever follows. -/
theorem attempts_cons_noise {b : Byte} (hb : b ≠ START) (bs : List Byte) : attempts (b :: bs) = attempts bs := by
  rw [attempts.eq_def]
  split
  · cases ‹b :: bs = []›
  · cases ‹b :: bs = _›
    exact if_neg hb
  · cases ‹b :: bs = _›
    exact if_neg hb

theorem attempts_start_of_accepts {b1 b2 b3 b4 : Byte} (ok : accepts b1 b2 b3 b4) (bs : List Byte) :
    attempts (START :: b1 :: b2 :: b3 :: b4 :: bs) = (⟨b1, b2⟩ :: (attempts bs).1, (attempts bs).2) := by
  rw [attempts, if_pos rfl, if_pos ok]

theorem attempts_start_of_not_accepts {b1 b2 b3 b4 : Byte} (bad : ¬ accepts b1 b2 b3 b4) (bs : List Byte) :
    attempts (START :: b1 :: b2 :: b3 :: b4 :: bs) = attempts bs := by
  rw [attempts, if_pos rfl, if_neg bad]

section
variable {d : Decoder}

theorem Decoder.attempt_at0 (h : d.p = 0) : d.attempt = [] := by rw [Decoder.attempt, h]
theorem Decoder.attempt_at1 (h : d.p = 1) : d.attempt = [START] := by rw [Decoder.attempt, h]
theorem Decoder.attempt_at2 (h : d.p = 2) : d.attempt = [START, d.buf1] := by rw [Decoder.attempt, h]
theorem Decoder.attempt_at3 (h : d.p = 3) : d.attempt = [START, d.buf1, d.buf2] := by rw [Decoder.attempt, h]
theorem Decoder.attempt_at4 (h : d.p = 4) : d.attempt = [START, d.buf1, d.buf2, d.buf3] := by rw [Decoder.attempt, h]

end

/-- What the decoder holds is an attempt without its fifth byte. -/
@[simp] theorem attempts_attempt (d : Decoder) : attempts d.attempt = ([], d.attempt) := by
  obtain ⟨p, b1, b2, b3, pe⟩ := d
  fin_cases p <;> rfl

/-- R143, R148: the attempts of a stream are those of a first part and those of the rest put behind the attempt the first part ends
in. -/
theorem attempts_append (as bs : List Byte) : attempts (as ++ bs) =
    ((attempts as).1 ++ (attempts ((attempts as).2 ++ bs)).1, (attempts ((attempts as).2 ++ bs)).2) := by
  induction as using attempts.induct with
  | case1 => rfl
  | case2 b1 b2 b3 b4 rest ok ih =>
    simp only [List.cons_append, attempts_start_of_accepts ok, ih]
  | case3 b1 b2 b3 b4 rest bad ih =>
    simp only [List.cons_append, attempts_start_of_not_accepts bad, ih]
  | case4 b0 b1 b2 b3 b4 rest noise ih =>
    rw [attempts_cons_noise noise, List.cons_append, attempts_cons_noise noise, ih]
  | case5 tail short =>
    have held : attempts (START :: tail) = ([], START :: tail) := by
      rw [attempts, if_pos rfl]
      exact short
    rw [held, List.nil_append]
  | case6 b0 tail short noise ih =>
    rw [attempts_cons_noise noise, List.cons_append, attempts_cons_noise noise, ih]

section
variable {i : Instr} {s t : State}

/-- R143 for one effect: the attempt held before, longer by the bytes taken, has the Coordinates accepted and ends in the attempt held
after. -/
theorem Effect.decoder_trace (h : Effect s i t) :
    (i = .reset ∧ t = s.resetBlock) ∨
    ∃ es bs cs, t.obs.events = s.obs.events ++ es ∧ t.obs.runStart = s.obs.runStart ∧
      t.obs.bytesIn = s.obs.bytesIn ++ bs ∧ acceptedOf es ++ t.dec.pe.toList = s.dec.pe.toList ++ cs ∧
      attempts (s.dec.attempt ++ bs) = (cs, t.dec.attempt) := by
  cases h with
  | reset => exact .inl ⟨rfl, rfl⟩
  | skip b ready at0 hb =>
    have held : s.dec.attempt = [] := Decoder.attempt_at0 at0
    exact .inr ⟨[], [b], [], by simp, rfl, rfl, by simp, by rw [State.rxTake_dec, held]; exact attempts_cons_noise hb []⟩
  | start ready at0 =>
    exact .inr ⟨[], [START], [], by simp, rfl, rfl, by simp, by rw [Decoder.attempt_at0 at0]; rfl⟩
  | collect1 b ready at1 =>
    exact .inr ⟨[], [b], [], by simp, rfl, rfl, by simp, by rw [Decoder.attempt_at1 at1]; rfl⟩
  | collect2 b ready at2 =>
    exact .inr ⟨[], [b], [], by simp, rfl, rfl, by simp, by rw [Decoder.attempt_at2 at2]; rfl⟩
  | collect3 b ready at3 =>
    exact .inr ⟨[], [b], [], by simp, rfl, rfl, by simp, by rw [Decoder.attempt_at3 at3]; rfl⟩
  | accept _ b ready at4 by_ =>
    obtain ⟨es, hes, -, -, -, hacc⟩ := (s.rxTake b).doEmit_events s.dec.candidate
    have idle : s.dec.pe = none := ready
    have ok : accepts s.dec.buf1 s.dec.buf2 s.dec.buf3 b := by_.imp (·.2) fun h => s.dec.chkOk_iff.1 h.2.2
    refine .inr ⟨es, [b], [s.dec.candidate], by simp [hes], by simp, by simp, ?_, ?_⟩
    · rw [idle]
      exact hacc ready
    · rw [Decoder.attempt_at4 at4]
      exact attempts_start_of_accepts ok []
  | reject b ready at4 hb bad =>
    have no : ¬ accepts s.dec.buf1 s.dec.buf2 s.dec.buf3 b :=
      not_or_intro hb (mt s.dec.chkOk_iff.2 (Bool.eq_false_iff.1 bad))
    refine .inr ⟨[], [b], [], by simp, rfl, rfl, by simp, ?_⟩
    rw [Decoder.attempt_at4 at4]
    exact attempts_start_of_not_accepts no []
  | complete c pending | expire c pending =>
    exact .inr ⟨[_], [], [], rfl, rfl, by simp, by simp [pending], by rw [List.append_nil]; exact attempts_attempt s.dec⟩
  | send | push | pop | drain => exact .inr ⟨[_], [], [], rfl, rfl, by simp⟩
  | _ => exact .inr ⟨[], [], [], by simp⟩

/-- A reset begins an empty ledger; every other effect extends both sides alike. -/
theorem Effect.keeps_rxLedger (h : Effect s i t) (hrun : s.obs.runStart ≤ s.obs.events.length) (hs : s.rxLedger) :
    t.rxLedger := by
  obtain ⟨-, rfl⟩ | ⟨es, bs, cs, hes, hstart, hbs, hacc, hends⟩ := h.decoder_trace
  · exact ⟨by rw [State.runEvents_resetBlock]; rfl, rfl⟩
  · obtain ⟨haccepted, hheld⟩ := hs
    have hattempts : attempts t.obs.bytesIn = ((attempts s.obs.bytesIn).1 ++ cs, t.dec.attempt) := by
      rw [hbs, attempts_append, ← hheld, hends]
    rw [State.rxLedger, hattempts]
    refine ⟨?_, rfl⟩
    calc acceptedOf t.runEvents ++ t.dec.pe.toList
        = acceptedOf s.runEvents ++ (acceptedOf es ++ t.dec.pe.toList) := by
          simp [State.runEvents_of_events hrun hes hstart]
      _ = (attempts s.obs.bytesIn).1 ++ cs := by rw [hacc, ← List.append_assoc, haccepted]

end

/-- Settles O38: the fetch touches neither decoder nor trace, and the effect of the operation fetched keeps the ledger. -/
theorem stepKeepsTheRxLedger : Obligations.StepKeepsTheRxLedger := by
  intro s t hs hledger hstep
  obtain ⟨e, hfetch⟩ := s.fetch_env
  obtain ⟨-, rfl⟩ | ⟨u, i, -, -, heff⟩ := step_cases hstep
  · rw [hfetch]
    exact hledger
  · rw [hfetch] at heff
    exact heff.keeps_rxLedger hs.runStarted hledger

end Sys2Proof.Machine

/-! ### `RXB` against its pseudocode, and the position after several bytes -/

namespace Sys2Proof.Machine

/-- Settles O31: the eight cases by the position; at `p = 4` the pseudocode's test is whether the byte accepts. -/
theorem rxbFollowsThePseudocode : Obligations.RxbFollowsThePseudocode := by
  intro b s ready
  match hp : s.dec.p with
  | 0 =>
    by_cases hb : b = 0xAA#8
    · subst hb
      exact ⟨_, rxb_start ready hp, by simp⟩
    · exact ⟨_, rxb_skip ready hp hb, by simp [hp, hb]⟩
  | 1 => exact ⟨_, rxb_collect1 ready hp, by simp⟩
  | 2 => exact ⟨_, rxb_collect2 ready hp, by simp⟩
  | 3 => exact ⟨_, rxb_collect3 ready hp, by simp⟩
  | 4 =>
    have test : s.dec.buf1 ^^^ s.dec.buf2 = s.dec.buf3 ↔ s.dec.chkOk = true := eq_comm.trans s.dec.chkOk_iff.symm
    by_cases ok : b = 0x55#8 ∨ s.dec.chkOk = true
    · refine ⟨_, rxb_accept ready hp ok, ?_⟩
      rw [State.doEmit_rxTake]
      simp [test, ok, Decoder.candidate]
    · obtain ⟨hb, bad⟩ := not_or.1 ok
      exact ⟨_, rxb_reject ready hp hb (Bool.eq_false_iff.2 bad), by simp [test, hb, bad]⟩

/-- Settles O34: with nothing pending this is the emission clause of the pseudocode, and with an emission pending no byte is taken. -/
theorem emissionAtTheFifthByteOnly : Obligations.EmissionAtTheFifthByteOnly := by
  intro b s t h
  by_cases ready : s.dec.pe = none
  · obtain ⟨t', h', -, -, -, -, -, hemit, -⟩ := rxbFollowsThePseudocode b s ready
    obtain rfl : t = t' := by cases h.symm.trans h'; rfl
    refine ⟨fun hp => ?_, fun hp _ ok => ?_⟩
    · rw [if_neg fun hc => hp hc.1] at hemit
      exact hemit
    · rw [if_pos ⟨hp, ok.imp_right Eq.symm⟩] at hemit
      obtain ⟨hq, hevents, hpe⟩ := hemit
      refine ⟨?_, fun room => ?_⟩
      · rw [State.accepted, hevents, hpe]
        exact State.doEmit_accepted ready
      · rw [hq, hevents, State.doEmit_of_room _ room]
        exact ⟨rfl, rfl⟩
  · cases h.symm.trans (noByteTakenWhilePending b s ready)
    exact ⟨fun _ => ⟨rfl, rfl, rfl⟩, fun _ hnone => absurd hnone ready⟩

/-- Within an attempt a byte moves the position on by one, modulo 5, and nothing is pending before the fifth. -/
theorem rxb_advances {s : State} (ready : s.rxReady) (within : s.dec.p ≠ 0) (b : Byte) :
    ∃ t, rxb b s = .next t ∧ t.dec.p = s.dec.p + 1 ∧ (t.dec.p ≠ 0 → t.rxReady) := by
  match hp : s.dec.p with
  | 0 => exact absurd hp within
  | 1 => exact ⟨_, rxb_collect1 ready hp, rfl, fun _ => ready⟩
  | 2 => exact ⟨_, rxb_collect2 ready hp, rfl, fun _ => ready⟩
  | 3 => exact ⟨_, rxb_collect3 ready hp, rfl, fun _ => ready⟩
  | 4 =>
    by_cases ok : b = STOP ∨ s.dec.chkOk = true
    · exact ⟨_, rxb_accept ready hp ok, rfl, fun h => absurd rfl h⟩
    · obtain ⟨hb, bad⟩ := not_or.1 ok
      exact ⟨_, rxb_reject ready hp hb (Bool.eq_false_iff.2 bad), rfl, fun _ => ready⟩

/-- R148: `n` bytes from within an attempt, as many as end it or fewer, move the position on by `n`. -/
theorem rxbs_advances {bs : List Byte} {s : State} (ready : s.rxReady) (within : s.dec.p ≠ 0)
    (hlen : bs.length ≤ 5 - s.dec.p.val) :
    ∃ t, rxbs bs s = .next t ∧ t.dec.p.val = (s.dec.p.val + bs.length) % 5 := by
  induction bs generalizing s with
  | nil => exact ⟨s, rfl, (Nat.mod_eq_of_lt s.dec.p.isLt).symm⟩
  | cons b bs ih =>
    obtain ⟨t, hrun, hp, hready⟩ := rxb_advances ready within b
    have hval : t.dec.p.val = (s.dec.p.val + 1) % 5 := by rw [hp, Fin.val_add]; rfl
    rw [rxbs_cons_of_next hrun, List.length_cons]
    rw [List.length_cons] at hlen
    by_cases hend : t.dec.p = 0
    · obtain rfl : bs = [] := by
        rw [hend] at hval
        exact List.length_eq_zero_iff.1 (by omega)
      exact ⟨t, rfl, hval⟩
    · have hpos : t.dec.p.val ≠ 0 := fun h => hend (Fin.ext h)
      obtain ⟨u, hrun', hu⟩ := ih (hready hend) hend (by omega)
      exact ⟨u, hrun', by rw [hu]; omega⟩

theorem rxbs_returns {bs : List Byte} {s : State} (ready : s.rxReady) (within : s.dec.p ≠ 0)
    (hlen : bs.length = 5 - s.dec.p.val) : ∃ t, rxbs bs s = .next t ∧ t.dec.p = 0 := by
  obtain ⟨t, hrun, hp⟩ := rxbs_advances ready within hlen.le
  have hend : s.dec.p.val + bs.length = 5 := by omega
  rw [hend] at hp
  exact ⟨t, hrun, Fin.ext hp⟩

theorem rxbs_singleton_of_next {b : Byte} {s t : State} (h : rxb b s = .next t) : rxbs [b] s = .next t :=
  rxbs_cons_of_next h []

/-- From `p = 0` the first of five bytes is held or passed over there, or it is a `START` whose attempt the other four end. -/
theorem rxbs_five_from_zero {b : Byte} {bs : List Byte} {s : State} (at0 : s.dec.p = 0) (hlen : bs.length = 4) :
    (∃ t, rxbs [b] s = .next t ∧ t.dec.p = 0) ∨ ∃ t, rxbs (b :: bs) s = .next t ∧ t.dec.p = 0 := by
  by_cases ready : s.dec.pe = none
  · by_cases hb : b = START
    · subst hb
      obtain ⟨t, hrun, hp⟩ := rxbs_returns (s := (s.rxTake START).setP 1) ready (by simp) hlen
      exact .inr ⟨t, (rxbs_cons_of_next (rxb_start ready at0) bs).trans hrun, hp⟩
    · exact .inl ⟨_, rxbs_singleton_of_next (rxb_skip ready at0 hb), at0⟩
  · exact .inl ⟨_, rxbs_singleton_of_next (noByteTakenWhilePending b s ready), at0⟩

/-- Settles O35: within an attempt the position counts the bytes; from `p = 0` five bytes are enough. -/
theorem returnToZero : Obligations.ReturnToZero := by
  intro bs s hpending
  have ready (within : s.dec.p ≠ 0) : s.rxReady := not_not.1 (mt hpending within)
  refine ⟨fun within hlt => ?early, fun within => rxbs_returns (ready within) within, fun hlen => ?five⟩
  case early =>
    obtain ⟨t, hrun, hp⟩ := rxbs_advances (ready within) within hlt.le
    have hpos : s.dec.p.val ≠ 0 := Fin.val_ne_of_ne within
    have hlast : (s.dec.p.val + bs.length) % 5 = s.dec.p.val + bs.length := Nat.mod_eq_of_lt (by omega)
    exact ⟨t, hrun, fun h0 => by rw [hlast, h0, Fin.val_zero] at hp; omega⟩
  case five =>
    by_cases at0 : s.dec.p = 0
    · obtain ⟨b, bs, rfl⟩ := List.exists_cons_of_length_eq_add_one hlen
      obtain ⟨t, hrun, hp⟩ | ⟨t, hrun, hp⟩ := rxbs_five_from_zero (b := b) at0 (Nat.succ.inj hlen)
      · exact ⟨1, t, by omega, by omega, hrun, hp⟩
      · exact ⟨5, t, by omega, by omega, by rwa [List.take_of_length_le hlen.le], hp⟩
    · have hpos : s.dec.p.val ≠ 0 := Fin.val_ne_of_ne at0
      obtain ⟨t, hrun, hp⟩ := rxbs_returns (bs := bs.take (5 - s.dec.p.val)) (ready at0) at0 (by simp; omega)
      exact ⟨5 - s.dec.p.val, t, by omega, by omega, hrun, hp⟩

end Sys2Proof.Machine

/-! ### Frames and filler fed to an aligned decoder -/

namespace Sys2Proof.Machine

/-- Settles O36: a frame is an accepted attempt, and the bytes taken may as well come after its `DoEmit`. -/
theorem alignedDecoderAcceptsAFrame : Obligations.AlignedDecoderAcceptsAFrame := by
  intro c s at0 ready
  rw [frameOf, rxbs_accepted c.x c.y (checksum c.x c.y) ready at0 (.inr rfl), State.doEmit_rxTake, State.doEmit_holding]
  simp [State.holding, State.rxTake, State.setP, checksum]

/-- Filler before a frame is passed over, so an aligned decoder performs the frame's `DoEmit` on the parameters, the queue and the trace
it was in. -/
theorem rxbs_filler_frame {filler : List Byte} {s : State} (c : Coordinate) (at0 : s.dec.p = 0) (ready : s.rxReady)
    (hfiller : ∀ b ∈ filler, b ≠ START) :
    ∃ t, rxbs (filler ++ frameOf c) s = .next t ∧ t.dec.p = 0 ∧ t.params = s.params ∧ t.q = (s.doEmit c).q ∧
      t.obs.events = (s.doEmit c).obs.events ∧ t.dec.pe = (s.doEmit c).dec.pe := by
  induction filler generalizing s with
  | nil => exact ⟨_, alignedDecoderAcceptsAFrame c s at0 ready, rfl, s.doEmit_params c, rfl, rfl, rfl⟩
  | cons b filler ih =>
    obtain ⟨hb, hrest⟩ := List.forall_mem_cons.1 hfiller
    obtain ⟨t, hrun, ht⟩ := ih (s := s.rxTake b) at0 ready hrest
    rw [State.doEmit_rxTake] at ht
    exact ⟨t, (rxbs_cons_of_next (rxb_skip ready at0 hb) _).trans hrun, ht⟩

theorem rxbs_append_of_next {as : List Byte} {s t : State} (h : rxbs as s = .next t) (bs : List Byte) :
    rxbs (as ++ bs) s = rxbs bs t := by
  induction as generalizing s with
  | nil => cases h; rfl
  | cons a as ih =>
    obtain ⟨u, hu⟩ := exec_next (s.selectRx a) s
    rw [rxbs_cons_of_next hu] at h
    rw [List.cons_append, rxbs_cons_of_next hu, ih h]

/-- Frames, each with filler before it. -/
abbrev streamOf (frames : List (List Byte × Coordinate)) : List Byte := frames.flatMap fun f => f.1 ++ frameOf f.2

section
variable {frames : List (List Byte × Coordinate)} {s : State} (at0 : s.dec.p = 0) (ready : s.rxReady)
  (hfiller : ∀ f ∈ frames, ∀ b ∈ f.1, b ≠ START)
include at0 ready hfiller

/-- R147 with room for every frame: each `DoEmit` appends. -/
theorem rxbs_stream_of_room (room : s.q.length + frames.length ≤ s.params.cap) :
    ∃ t, rxbs (streamOf frames) s = .next t ∧ t.dec.p = 0 ∧ t.dec.pe = none ∧ t.q = s.q ++ frames.map (·.2) ∧
      t.obs.events = s.obs.events ++ frames.map fun f => .emit f.2 := by
  induction frames generalizing s with
  | nil => exact ⟨s, rfl, at0, ready, by simp⟩
  | cons f frames ih =>
    obtain ⟨hf, hrest⟩ := List.forall_mem_cons.1 hfiller
    rw [List.length_cons] at room
    obtain ⟨t, hrun, hp, hparams, hq, hevents, hpe⟩ := rxbs_filler_frame f.2 at0 ready hf
    have emit : s.doEmit f.2 = s.append f.2 (.emit f.2) := State.doEmit_of_room f.2 (by omega)
    rw [emit] at hq hevents hpe
    obtain ⟨u, hrun', hp', hpe', hq', hevents'⟩ := ih hp (hpe.trans ready) hrest (by simp [hq, hparams]; omega)
    exact ⟨u, (rxbs_append_of_next hrun _).trans hrun', hp', hpe', by simp [hq', hq], by simp [hevents', hevents]⟩

/-- R147 whatever the room, where an emission never waits: each `DoEmit` accepts. -/
theorem rxbs_stream_of_zero (zero : s.params.tEmit = .zero) :
    ∃ t, rxbs (streamOf frames) s = .next t ∧ t.dec.p = 0 ∧ t.accepted = s.accepted ++ frames.map (·.2) := by
  induction frames generalizing s with
  | nil => exact ⟨s, rfl, at0, by simp⟩
  | cons f frames ih =>
    obtain ⟨hf, hrest⟩ := List.forall_mem_cons.1 hfiller
    obtain ⟨t, hrun, hp, hparams, -, hevents, hpe⟩ := rxbs_filler_frame f.2 at0 ready hf
    have accepted : t.accepted = s.accepted ++ [f.2] := by
      rw [State.accepted, hevents, hpe]
      exact State.doEmit_accepted ready
    obtain ⟨u, hrun', hp', haccepted⟩ :=
      ih hp (hpe.trans (State.doEmit_pe_of_zero f.2 ready zero)) hrest (hparams ▸ zero)
    exact ⟨u, (rxbs_append_of_next hrun _).trans hrun', hp', by simp [haccepted, accepted]⟩

end

/-- Settles O37: frame by frame, with room and without a wait. -/
theorem alignedDecoderAcceptsAStream : Obligations.AlignedDecoderAcceptsAStream :=
  fun _ _ at0 ready hfiller => ⟨rxbs_stream_of_room at0 ready hfiller, rxbs_stream_of_zero at0 ready hfiller⟩

end Sys2Proof.Machine

/-! ### The calls on the FIFO -/

namespace Sys2Proof.Machine

/-- R163: a `finite` call that cannot proceed waits or gives up, and draws one free value either way. -/
theorem State.refuseOrWait_finite (e : QueueError) (i : Instr) (s : State) :
    s.refuseOrWait .finite e i = (s.hold i).drawn 1 ∨ s.refuseOrWait .finite e i = (s.fail e).drawn 1 := by
  obtain ⟨hclass, -⟩ | ⟨-, hgivesUp⟩ | ⟨-, hwaits⟩ | ⟨hclass, -⟩ := s.refuseOrWait_cases .finite e i
  · cases hclass
  · exact .inr hgivesUp
  · exact .inl hwaits
  · cases hclass

/-- At the capacity there is no room. -/
theorem State.not_hasRoom_of_length_eq {s : State} (full : s.q.length = s.params.cap) : ¬ s.hasRoom :=
  full.not_lt

/-- Settles O44: the effect of a push with room, written out. -/
theorem pushWithRoomAppends : Obligations.PushWithRoomAppends :=
  fun _ _ _ => exec_push_of_room

/-- Settles O45: at the capacity there is no room, and a call that does not wait fails. -/
theorem pushOnFullFailsAtOnce : Obligations.PushOnFullFailsAtOnce :=
  fun _ _ full => exec_push_of_full (State.not_hasRoom_of_length_eq full)

/-- Settles O46: at the capacity there is no room; the `infinite` call is held, the `finite` one by the draw. -/
theorem pushOnFullWaits : Obligations.PushOnFullWaits := by
  intro c s full
  have refused {tau : Timeout} := exec_push_of_full (c := c) (tau := tau) (State.not_hasRoom_of_length_eq full)
  refine ⟨refused, ?_⟩
  rw [refused]
  exact (s.refuseOrWait_finite .queueFull _).imp (congrArg _) (congrArg _)

/-- Settles O47: the effect of a pop of the head, the rest being the tail. -/
theorem popReturnsTheOldest : Obligations.PopReturnsTheOldest := by
  intro c rest tau s head
  have tail : rest = s.q.tail := by rw [head, List.tail_cons]
  rw [exec_pop_cons head, tail]
  rfl

/-- Settles O48: on the empty queue a call that does not wait fails. -/
theorem popOnEmptyFailsAtOnce : Obligations.PopOnEmptyFailsAtOnce :=
  fun _ => exec_pop_nil

/-- Settles O49: on the empty queue the `infinite` call is held, the `finite` one by the draw. -/
theorem popOnEmptyWaits : Obligations.PopOnEmptyWaits := by
  intro s empty
  refine ⟨exec_pop_nil empty, ?_⟩
  rw [exec_pop_nil empty]
  exact (s.refuseOrWait_finite .queueEmpty _).imp (congrArg _) (congrArg _)

end Sys2Proof.Machine

/-! ### A drain with no other agent moving -/

namespace Sys2Proof.Machine

section
variable {s t : State} {rest : List Transfer}

/-- With no reset line and no turn the first offer is taken. -/
theorem State.fetch_of_no_turn {u : Transfer} (hrst : s.env.rst = false) (hturns : s.env.turns = [])
    (hoffers : s.env.offers = u :: rest) : s.fetch = (some u, { s with env.offers := rest }) := by
  simp [State.fetch, hrst, hturns, hoffers]

/-- An operation held stands again where its offer was taken. -/
theorem State.hold_of_taken {i : Instr} (hoffers : s.env.offers = (encode i).offer :: rest) :
    State.hold i { s with env.offers := rest } = s := by
  simp [State.hold, State.offerFirst, ← hoffers]

/-- An operation in front whose offer decodes at every position and buffer is, with no reset line and no turn, the next step. -/
theorem step_of_no_turn {i : Instr} (hrst : s.env.rst = false) (hturns : s.env.turns = [])
    (hoffers : s.env.offers = (encode i).offer :: rest)
    (hdecode : ∀ pos chkOk, decode ⟨pos, chkOk, (encode i).offer⟩ = .ok i) :
    step s = exec i { s with env.offers := rest } := by
  have hfetch := State.fetch_of_no_turn hrst hturns hoffers
  rw [step_of_fetch_some (congrArg Prod.fst hfetch), hfetch]
  exact State.attempt_ok (hdecode _ _)

theorem runSteps_succ_of_next (h : step s = .next t) (n : Nat) : runSteps (n + 1) s = runSteps n t := by
  rw [runSteps, h]

end

section
variable {s : State} {rest : List Transfer} (hrst : s.env.rst = false) (hturns : s.env.turns = [])
  (hoffers : s.env.offers = (encode .drain).offer :: rest)
include hrst hturns hoffers

/-- R96: on the empty queue the `DRAIN` in front ends with a failing pop. -/
theorem step_drain_nil (empty : s.q = []) : step s = .next (State.fail .queueEmpty { s with env.offers := rest }) :=
  (step_of_no_turn hrst hturns hoffers fun _ _ => rfl).trans (exec_drain_nil empty)

/-- R96: on a queue with a head the `DRAIN` in front pops it and stands in front again, so that the step is the pop alone. -/
theorem step_drain_cons {c : Coordinate} {q : List Coordinate} (head : s.q = c :: q) : step s = .next (s.popNow c) :=
  calc step s
      = exec .drain { s with env.offers := rest } := step_of_no_turn hrst hturns hoffers fun _ _ => rfl
    _ = .next ((State.popNow c { s with env.offers := rest }).hold .drain) := exec_drain_cons head
    _ = .next (s.popNow c) := congrArg _ (State.hold_of_taken (s := s.popNow c) hoffers)

end

/-- Settles O52, by induction on the queue: each step on a queue with a head pops it, and the step on the empty queue fails. -/
theorem drainDeliversEachOnce : Obligations.DrainDeliversEachOnce := by
  intro s rest hrst hturns hoffers
  induction hq : s.q generalizing s with
  | nil =>
    refine (runSteps_succ_of_next (step_drain_nil hrst hturns hoffers hq) 0).trans ?_
    simp [runSteps, State.fail, State.answer, hq]
  | cons c q ih =>
    have hpopped : (s.popNow c).q = q := congrArg List.tail hq
    refine (runSteps_succ_of_next (step_drain_cons hrst hturns hoffers hq) _).trans ?_
    rw [List.length_cons, ih (s.popNow c) hrst hturns hoffers hpopped]
    simp

end Sys2Proof.Machine

/-! ### Offers of their interfaces' shape -/

namespace Sys2Proof

/-- An offer of its interface's shape (log entry 9): it is an operation at every position and buffer. `State.offersDecode` asks this of
each offer. -/
def Transfer.Decodes (t : Transfer) : Prop := ∀ pos chkOk, ∃ i, decode ⟨pos, chkOk, t⟩ = .ok i

/-- The offer of an operation has its interface's shape: at RX it is whichever case is selected, elsewhere the operation itself. -/
theorem decodes_encode_offer (i : Instr) : (encode i).offer.Decodes := by
  intro pos chkOk
  have roundTrip : Laws.RoundTrip.Statement i := decode_encode i
  cases i with
  | rxStart | rxSkip | rxCollect1 | rxCollect2 | rxCollect3 | rxAcceptStop | rxAcceptChk | rxReject =>
    exact ⟨decodeRx pos chkOk _, rfl⟩
  | _ => exact ⟨_, roundTrip rfl⟩

end Sys2Proof

namespace Sys2Proof.Machine

section
variable {i : Instr} {s t : State} {u : Transfer}

theorem State.fetch_offers_subset (s : State) : s.fetch.2.env.offers ⊆ s.env.offers := by
  cases hrst : s.env.rst with
  | true => rw [State.fetch_of_rst hrst]; exact List.Subset.refl _
  | false =>
    cases hfetch : s.fetch.1 with
    | none => rw [State.fetch_none_offers hfetch]; exact List.Subset.refl _
    | some u =>
      obtain ⟨front, back, hoffers, hrest, -⟩ := State.fetch_some_offers hrst hfetch
      rw [hoffers, hrest]
      exact ((List.sublist_cons_self u back).append_left front).subset

/-- The offer a fetch takes is the reset line's (log entry 7) or stood at an interface. -/
theorem State.fetch_some_eq_reset_or_mem (h : s.fetch.1 = some u) : u = (encode .reset).offer ∨ u ∈ s.env.offers := by
  cases hrst : s.env.rst with
  | true =>
    rw [State.fetch_of_rst hrst] at h
    exact .inl (Option.some.inj h).symm
  | false =>
    obtain ⟨front, back, hoffers, -, -⟩ := State.fetch_some_offers hrst h
    exact .inr (by simp [hoffers])

/-- Log entries 3 and 12: an operation takes no offer away, and what it adds, itself held or the lines it stands for, are the offers
of operations. -/
theorem Effect.adds_offers (h : Effect s i t) :
    ∃ js : List Instr, t.env.offers = js.map (fun j => (encode j).offer) ++ s.env.offers := by
  cases h with
  | held | heldDrawn => exact ⟨[i], rfl⟩
  | drain => exact ⟨[.drain], rfl⟩
  | feed bs => exact ⟨bs.map .rxCollect1, by rw [List.map_map]; rfl⟩
  | feedFrame c => exact ⟨(frameOf c).map .rxCollect1, rfl⟩
  | sendFrame c => exact ⟨.encLoad c :: List.replicate 5 .encSend, rfl⟩
  | accept => exact ⟨[], by simp⟩
  | _ => exact ⟨[], rfl⟩

theorem State.offersDecode.fetch (h : s.offersDecode) : s.fetch.2.offersDecode :=
  fun u hu => h u (s.fetch_offers_subset hu)

theorem State.offersDecode.fetched (h : s.offersDecode) (hu : s.fetch.1 = some u) : u.Decodes := by
  obtain rfl | hmem := State.fetch_some_eq_reset_or_mem hu
  · exact decodes_encode_offer .reset
  · exact h u hmem

theorem Effect.keeps_offersDecode (h : Effect s i t) (hs : s.offersDecode) : t.offersDecode := by
  obtain ⟨js, hoffers⟩ := h.adds_offers
  intro u hu
  rw [hoffers, List.mem_append, List.mem_map] at hu
  obtain ⟨j, -, rfl⟩ | hmem := hu
  · exact decodes_encode_offer j
  · exact hs u hmem

end

/-- Settles O9: there is no fault; the offer fetched is an operation, every operation answers a next state, and the fetch and the
operation leave only offers of their interfaces' shape. -/
theorem stepNeverStops : Obligations.StepNeverStops := by
  intro s
  refine ⟨nofun, fun hs => ?_⟩
  cases hfetch : s.fetch.1 with
  | none => exact ⟨s.fetch.2, step_of_fetch_none hfetch, hs.fetch⟩
  | some u =>
    obtain ⟨i, hdecode⟩ := hs.fetched hfetch s.fetch.2.dec.p s.fetch.2.dec.chkOk
    obtain ⟨t, hexec⟩ := exec_next i s.fetch.2
    have hstep : step s = .next t :=
      calc step s
          = s.fetch.2.attempt u := step_of_fetch_some hfetch
        _ = exec i s.fetch.2 := State.attempt_ok hdecode
        _ = .next t := hexec
    exact ⟨t, hstep, (exec_effect hexec).keeps_offersDecode hs.fetch⟩

end Sys2Proof.Machine

/-! ### The reset line, the agent whose turn it is, the first offer -/

namespace Sys2Proof.Machine

/-- The offer taken in a turn is the first of the agent's. -/
theorem takeOffer_map_fst (a : Agent) (ts : List Transfer) :
    (takeOffer a ts).map Prod.fst = ts.find? fun t => decide (Port.agent t.port = a) := by
  induction ts with
  | nil => rfl
  | cons t ts ih =>
    unfold takeOffer
    by_cases ha : Port.agent t.port = a
    · simp [ha]
    · simp [ha, ← ih, Function.comp_def]

section
variable {s : State}

/-- R220, R198 (d): with the reset line asserted a step is the `RESET` alone, and every offer stands. -/
theorem step_of_rst (hrst : s.env.rst = true) : step s = exec .reset { s with env.rst := false } := by
  have hfetch := State.fetch_of_rst hrst
  rw [step_of_fetch_some (congrArg Prod.fst hfetch), hfetch]
  exact State.attempt_ok rfl

/-- Log entry 2: off the reset line a turn is used up, and its agent's first offer, where there is one, is taken. -/
theorem State.fetch_of_turn {a : Agent} {as : List Agent} (hrst : s.env.rst = false) (hturns : s.env.turns = a :: as) :
    s.fetch.1 = (takeOffer a s.env.offers).map Prod.fst ∧ s.fetch.2.env.turns = as := by
  cases htake : takeOffer a s.env.offers <;> simp [State.fetch, hrst, hturns, htake]

/-- R12: with no reset line, no turn and no offer a step waits. -/
theorem step_of_no_offer (hrst : s.env.rst = false) (hturns : s.env.turns = []) (hoffers : s.env.offers = []) :
    step s = .next s := by
  have hfetch : s.fetch = (none, s) := by simp [State.fetch, hrst, hturns, hoffers]
  rw [step_of_fetch_none (congrArg Prod.fst hfetch), hfetch]

end

/-- Settles O6: a clause for each of the reset line, no turn with an offer, a turn, and nothing at all. -/
theorem fetchPriority : Obligations.FetchPriority := by
  intro s
  refine ⟨step_of_rst, fun _ _ => State.fetch_of_no_turn, fun a as hrst hturns => ?_, step_of_no_offer⟩
  rw [← takeOffer_map_fst]
  exact State.fetch_of_turn hrst hturns

/-- R32 in the state of R37: with a capacity the FIFO is empty and not full, and no emission is pending and no frame being sent. -/
theorem State.resetBlock_flags (s : State) (hcap : 1 ≤ s.params.cap) :
    s.resetBlock.fifoEmpty = true ∧ s.resetBlock.fifoFull = false ∧ s.resetBlock.fifoCount = 0 ∧
      s.resetBlock.peValid = false ∧ s.resetBlock.tbusy = false := by
  have notFull : ¬ s.resetBlock.fifoFull = true := by
    rw [State.fifoFull_iff]
    exact (Nat.ne_of_gt hcap).symm
  exact ⟨rfl, Bool.eq_false_of_not_eq_true notFull, rfl, rfl, rfl⟩

/-- Settles O55: the cells of R37 by definition, the flags where there is a capacity, and the step under the reset line. -/
theorem resetClearsTheBlock : Obligations.ResetClearsTheBlock :=
  fun s => ⟨⟨s.resetBlock, rfl, rfl, rfl, rfl, rfl, rfl, rfl, rfl, s.resetBlock_flags⟩, step_of_rst⟩

end Sys2Proof.Machine

/-! ### Misalignment and realignment -/

namespace Sys2Proof.Machine

/-- R230: the last four bytes of a frame with `x = 0xAA` and the first of the next are an attempt that neither the stop byte nor the
checksum accepts. -/
theorem not_accepts_misaligned (y : Byte) : ¬ accepts y (0xAA ^^^ y) 0x55 0xAA := by
  have hchk : checksum y (0xAA ^^^ y) = 0xAA := by
    rw [checksum, BitVec.xor_comm, BitVec.xor_assoc, BitVec.xor_self, BitVec.xor_zero]
  rw [accepts, hchk]
  decide

/-- Settles O39, by induction on the periods: each is a rejected attempt. -/
theorem misalignmentCanLastForEver : Obligations.MisalignmentCanLastForEver := by
  intro y n s at0 ready
  induction n generalizing s with
  | zero => exact ⟨s, rfl, at0, rfl, rfl, ready⟩
  | succ n ih =>
    have period := rxbs_rejected y (0xAA ^^^ y) 0x55 ready at0 (not_accepts_misaligned y)
    rw [List.replicate_succ, List.flatten_cons, rxbs_append_of_next period]
    exact ih _ rfl ready

/-- Between attempts a byte other than `START` leaves the decoder there: it is passed over, or held while an emission is pending. -/
theorem rxb_stays_at_zero {s : State} {b : Byte} (at0 : s.dec.p = 0) (hb : b ≠ START) :
    ∃ t, rxb b s = .next t ∧ t.dec.p = 0 := by
  by_cases ready : s.dec.pe = none
  · exact ⟨_, rxb_skip ready at0 hb, at0⟩
  · exact ⟨_, noByteTakenWhilePending b s ready, at0⟩

theorem rxbs_stays_at_zero {bs : List Byte} {s : State} (at0 : s.dec.p = 0) (hbs : ∀ b ∈ bs, b ≠ START) :
    ∃ t, rxbs bs s = .next t ∧ t.dec.p = 0 := by
  induction bs generalizing s with
  | nil => exact ⟨s, rfl, at0⟩
  | cons b bs ih =>
    obtain ⟨hb, hrest⟩ := List.forall_mem_cons.1 hbs
    obtain ⟨t, hrun, hp⟩ := rxb_stays_at_zero at0 hb
    rw [rxbs_cons_of_next hrun]
    exact ih hp hrest

/-- Settles O40: within an attempt the first bytes of the gap, four at most, end it; the others leave the decoder at `p = 0`. -/
theorem aGapRealigns : Obligations.AGapRealigns := by
  intro gap s hpending hlen hgap
  by_cases at0 : s.dec.p = 0
  · exact rxbs_stays_at_zero at0 hgap
  · have ready : s.rxReady := not_not.1 (mt hpending at0)
    have hpos : s.dec.p.val ≠ 0 := Fin.val_ne_of_ne at0
    obtain ⟨t, hrun, hp⟩ := rxbs_returns (bs := gap.take (5 - s.dec.p.val)) ready at0 (by simp; omega)
    rw [← List.take_append_drop (5 - s.dec.p.val) gap, rxbs_append_of_next hrun]
    exact rxbs_stays_at_zero hp fun b hb => hgap b (List.mem_of_mem_drop hb)

end Sys2Proof.Machine
